-- ==== Sys2Proof/Word.lean ====
section
/-! DEFINITION. The widths the spec uses: command and register words, packed colours, character codes
(00_scope.md R10, R13; 10_state.md R21, R37). -/

namespace Sys2Proof

/-- A 32-bit command word or register word (R37, R70). Bit 0 is the least significant (R10). -/
abbrev Word := BitVec 32

/-- A 24-bit packed colour, green in bits [23:16], red in [15:8], blue in [7:0] (R21, R100). -/
abbrev Color := BitVec 24

/-- An 8-bit channel intensity or character code (R13, R73). -/
abbrev Byte := BitVec 8

end Sys2Proof
end

