-- ==== Sys2Proof/Syntax.lean ====
section
/-! DEFINITION. The fifteen commands of 30_encoding.md R81 (spec/opcode_table.json, one constructor a row), with
their operands as the spec reads them: signed fields are integers (R74, R75, R76, R79), channel intensities,
character codes and row numbers are bytes (R73, R76, R77). Illegal words are no command; decoding rejects them by
name (`Decode.lean`). -/

namespace Sys2Proof

/-- The alignment modes of `DRAWV` (R80). -/
inductive Align where
  | left
  | right
  | center
deriving DecidableEq, Repr

/-- One command of the block (R81). Operands stand in the order of the word's fields, highest field first. -/
inductive Instr where
  | setcolor (g r b : Byte)            -- R105
  | set (idx : Int)                    -- R106
  | setxy (x y : Int)                  -- R107
  | fill                               -- R108
  | clear                              -- R109
  | drawg (x : Int) (c : Byte)         -- R121
  | gwidth (c : Byte)                  -- R95
  | grow (row : Byte) (c : Byte)       -- R96
  | vnone                              -- R123
  | vstr                               -- R124
  | vpush (c : Byte)                   -- R125
  | vint (imm : Int)                   -- R126
  | canr                               -- R129
  | drawv (sign : Bool) (align : Align) -- R133
  | transmit                           -- R156
deriving DecidableEq, Repr

end Sys2Proof
end

