-- ==== Sys2Proof/WellFormed.lean ====
section
/-! DEFINITION. The operand ranges of 30_encoding.md R87 (the same as R74, R75, R76, R79 give the decoded fields):
the integers a word can carry. Byte operands are in range by their type. -/

namespace Sys2Proof

/-- `v` is in the range of an `n`-bit two's-complement field, `[-2^(n-1), 2^(n-1) - 1]` (R11). -/
abbrev fitsSigned (n : Nat) (v : Int) : Prop := -(2 ^ (n - 1)) ≤ v ∧ v ≤ 2 ^ (n - 1) - 1

/-- Every operand is in the range R87 gives it. -/
def Instr.wellFormed : Instr → Bool
  | .set idx => fitsSigned 24 idx
  | .setxy x y => fitsSigned 12 x ∧ fitsSigned 12 y
  | .drawg x _ => fitsSigned 16 x
  | .vint imm => fitsSigned 24 imm
  | .setcolor _ _ _ | .fill | .clear | .gwidth _ | .grow _ _ | .vnone | .vstr | .vpush _ | .canr | .drawv _ _
  | .transmit => true

/-- The check as a proposition. -/
abbrev Instr.WellFormed (i : Instr) : Prop := i.wellFormed = true

end Sys2Proof
end

