-- ==== Sys2Proof/Decode.lean ====
section
/-! DEFINITION. The decoder of 30_encoding.md R86 (total: every 32-bit word is a command or is rejected by the name of
the rule it breaks), the fields it reads (R72 to R80), the encoder (R87, R89) and the decoder as the host numbers an
instruction's bits. A command is one 32-bit word (R70), so there is no stream of bytes to parse. -/

namespace Sys2Proof

/-- Why a word is no command: R82, R83 or R84. All three have one effect, `E_ILLEGAL` alone (R182). -/
inductive Illegal where
  | reservedOpcode  -- R82: opcode 0x0 or 0xF
  | reservedBits    -- R83: a bit that R72 marks 0 is set
  | reservedField   -- R84: kind 2 or 3, align 3
deriving DecidableEq, Repr

/-- The field `w[lo+len-1 : lo]` (R10). -/
def wordField (w : Word) (lo len : Nat) : BitVec len := w.extractLsb' lo len

/-- The opcode, bits [31:28] (R71). -/
def opcodeOf (w : Word) : Nat := (wordField w 28 4).toNat

/-- `ok` when the `len` bits of `w` from bit `lo` up are all 0, as R83 demands of reserved bits, else rejected. -/
def reservedZero (w : Word) (lo len : Nat) (ok : Except Illegal Instr) : Except Illegal Instr :=
  if wordField w lo len = 0 then ok else .error .reservedBits

/-- The command that `kind` selects under opcode 0x9 (R78, R84). -/
def kindCommand (kind : BitVec 2) : Except Illegal Instr :=
  if kind = 0 then .ok .vnone else if kind = 1 then .ok .vstr else .error .reservedField

/-- The `align` field of format `D` (R80, R84). -/
def alignField (a : BitVec 2) : Except Illegal Align :=
  if a = 0 then .ok .left else if a = 1 then .ok .right else if a = 2 then .ok .center else .error .reservedField

/-- Decoding, in the check order of R86. -/
def decode (w : Word) : Except Illegal Instr :=
  match opcodeOf w with
  | 0x1 => reservedZero w 24 4 (.ok (.setcolor (wordField w 16 8) (wordField w 8 8) (wordField w 0 8)))
  | 0x2 => reservedZero w 24 4 (.ok (.set (wordField w 0 24).toInt))
  | 0x3 => reservedZero w 24 4 (.ok (.setxy (wordField w 12 12).toInt (wordField w 0 12).toInt))
  | 0x4 => reservedZero w 0 28 (.ok .fill)
  | 0x5 => reservedZero w 0 28 (.ok .clear)
  | 0x6 => reservedZero w 24 4 (.ok (.drawg (wordField w 8 16).toInt (wordField w 0 8)))
  | 0x7 => reservedZero w 8 20 (.ok (.gwidth (wordField w 0 8)))
  | 0x8 => reservedZero w 16 12 (.ok (.grow (wordField w 8 8) (wordField w 0 8)))
  | 0x9 => reservedZero w 2 26 (kindCommand (wordField w 0 2))
  | 0xA => reservedZero w 8 20 (.ok (.vpush (wordField w 0 8)))
  | 0xB => reservedZero w 24 4 (.ok (.vint (wordField w 0 24).toInt))
  | 0xC => reservedZero w 0 28 (.ok .canr)
  | 0xD => reservedZero w 3 25 ((alignField (wordField w 0 2)).map (.drawv (w.getLsbD 2)))
  | 0xE => reservedZero w 0 28 (.ok .transmit)
  | _ => .error .reservedOpcode

/-- The code of an alignment (R80). -/
def alignCode : Align → BitVec 2
  | .left => 0
  | .right => 1
  | .center => 2

/-- The word of a command, field by field as R87's encoding column concatenates them (`++` is `::` of R10). For a
well-formed command nothing is truncated. -/
def encode : Instr → Word
  | .setcolor g r b => 0x10#8 ++ g ++ r ++ b
  | .set idx => 0x20#8 ++ BitVec.ofInt 24 idx
  | .setxy x y => 0x30#8 ++ BitVec.ofInt 12 x ++ BitVec.ofInt 12 y
  | .fill => 0x40000000#32
  | .clear => 0x50000000#32
  | .drawg x c => 0x60#8 ++ BitVec.ofInt 16 x ++ c
  | .gwidth c => 0x700000#24 ++ c
  | .grow row c => 0x8000#16 ++ row ++ c
  | .vnone => 0x90000000#32
  | .vstr => 0x90000001#32
  | .vpush c => 0xA00000#24 ++ c
  | .vint imm => 0xB0#8 ++ BitVec.ofInt 24 imm
  | .canr => 0xC0000000#32
  | .drawv sign align => 0xD000000#28 ++ 0#1 ++ BitVec.ofBool sign ++ alignCode align
  | .transmit => 0xE0000000#32

/-- The match and the mask of the command's row in spec/opcode_table.json, as the command's rule gives them. -/
def tableRow : Instr → Word × Word
  | .setcolor _ _ _ => (0x10000000, 0xFF000000)
  | .set _ => (0x20000000, 0xFF000000)
  | .setxy _ _ => (0x30000000, 0xFF000000)
  | .fill => (0x40000000, 0xFFFFFFFF)
  | .clear => (0x50000000, 0xFFFFFFFF)
  | .drawg _ _ => (0x60000000, 0xFF000000)
  | .gwidth _ => (0x70000000, 0xFFFFFF00)
  | .grow _ _ => (0x80000000, 0xFFFF0000)
  | .vnone => (0x90000000, 0xFFFFFFFF)
  | .vstr => (0x90000001, 0xFFFFFFFF)
  | .vpush _ => (0xA0000000, 0xFFFFFF00)
  | .vint _ => (0xB0000000, 0xFF000000)
  | .canr => (0xC0000000, 0xFFFFFFFF)
  | .drawv _ _ => (0xD0000000, 0xFFFFFFF8)
  | .transmit => (0xE0000000, 0xFFFFFFFF)

/-- The command word whose low `nbits` bits are those of `w` and whose other bits are 0. Every row of
spec/opcode_table.json has 32 bits, and so has every command (R70). -/
def tableWord (nbits w : Nat) : Word := BitVec.ofNat 32 (w % 2 ^ nbits)

/-- What the decoder reads from the bits `w` of a row of `nbits` bits; bit 0 is the word's least significant bit. -/
def decodeTableWord (nbits w : Nat) : Option Instr :=
  match decode (tableWord nbits w) with
  | .ok i => some i
  | .error _ => none

end Sys2Proof
end

