-- ==== Sys2Proof/Config.lean ====
section
/-! DEFINITION. The implementation parameters of 00_scope.md R7 and the constraints of R8: the entries marked fixed
are constants, the entries marked OPEN are the fields of `Config`, an argument of the model that the state carries
(log entry 1). No value of the spec is left free, so there is no opaque constant here. -/

namespace Sys2Proof

/-- `FB_MAX`, the largest framebuffer (R7). -/
abbrev fbMax : Nat := 4096
/-- `TEXT_MAX`, the capacity of the text buffer (R7). -/
abbrev textMax : Nat := 16
/-- `SLOT_NS`, the duration of one slot unit in nanoseconds (R7, R150). -/
abbrev slotNs : Nat := 125
/-- `T1`, the HIGH phase every bit has, in slots (R7). -/
abbrev phaseT1 : Nat := 2
/-- `T2`, the phase that carries the bit's value, in slots (R7). -/
abbrev phaseT2 : Nat := 5
/-- `T3`, the LOW phase every bit begins with, in slots (R7). -/
abbrev phaseT3 : Nat := 3
/-- `LATCH_SLOTS`, the settling interval in slots (R7, R160). -/
abbrev latchSlots : Nat := 80000
/-- The size in bytes of the register window at `BASE` (R37). -/
abbrev windowBytes : Nat := 0x10000
/-- The number of characters in the font (R90). -/
abbrev fontChars : Nat := 15

/-- The OPEN parameters of R7. `font` holds the glyphs of the 15 supported characters in the order of R90's table
(`0` to `9`, `-`, `+`, `:`, `(`, `)`), each a list of row values, top row first (R91). `pin` is the opaque pin
identifier and `pinClaimable` says whether the platform can claim it (R8 (d), log entry 14). -/
structure Config where
  width        : Nat
  height       : Nat
  fontHeight   : Nat
  glyphBits    : Nat
  font         : Vector (List Nat) fontChars
  pin          : Nat
  pinClaimable : Bool
  base         : Nat
deriving DecidableEq, Repr

/-- `N = W * H`, the framebuffer length (R7). -/
def Config.pixels (c : Config) : Nat := c.width * c.height

/-- The ranges of R7 and the constraints of R8. A configuration that breaks one is refused
(`Machine.State.boot`). -/
abbrev Config.Wf (c : Config) : Prop :=
  (1 ≤ c.width ∧ c.width ≤ 4095) ∧ (1 ≤ c.height ∧ c.height ≤ 4095) ∧ c.pixels ≤ fbMax ∧
  (1 ≤ c.fontHeight ∧ c.fontHeight ≤ 31) ∧ (1 ≤ c.glyphBits ∧ c.glyphBits ≤ 32) ∧
  (∀ g ∈ c.font.toList, g.length = c.fontHeight ∧ ∀ r ∈ g, r < 2 ^ c.glyphBits) ∧
  c.pinClaimable = true ∧ c.base % windowBytes = 0

end Sys2Proof
end

