-- ==== Sys2Proof/Machine/ResetConfig.lean ====
section
/-! DEFINITION. The configurations that 41_font_table.md R97 and 95_test_vectors.md give: TESTFONT and the matrix of the
test vectors. `Config.atReset` is the configuration `State.reset` is built with (log entry 2); the hardware's own font
and sizes are in no source (R97, 91_not_in_source.md N2, N12), so no statement rests on this choice: the machine takes
its configuration from the state. -/

namespace Sys2Proof

/-- The glyphs of TESTFONT, rows top first, in the order `0`..`9`, `-`, `+`, `:`, `(`, `)` (R97). -/
def testFont : Vector (List Nat) fontChars := #v[
  [0b111, 0b101, 0b101, 0b101, 0b111],
  [0b01, 0b11, 0b01, 0b01, 0b01],
  [0b111, 0b001, 0b111, 0b100, 0b111],
  [0b111, 0b001, 0b111, 0b001, 0b111],
  [0b101, 0b101, 0b111, 0b001, 0b001],
  [0b111, 0b100, 0b111, 0b001, 0b111],
  [0b111, 0b100, 0b111, 0b101, 0b111],
  [0b111, 0b001, 0b001, 0b001, 0b001],
  [0b111, 0b101, 0b111, 0b101, 0b111],
  [0b111, 0b101, 0b111, 0b001, 0b111],
  [0b000, 0b000, 0b111, 0b000, 0b000],
  [0b000, 0b010, 0b111, 0b010, 0b000],
  [0b0, 0b1, 0b0, 0b1, 0b0],
  [0b01, 0b10, 0b10, 0b10, 0b01],
  [0b10, 0b01, 0b01, 0b01, 0b10]]

/-- A configuration with TESTFONT (R97: `FH = 5`, `GBITS = 8`) and a matrix of the given size. -/
def Config.test (w h : Nat) : Config :=
  { width := w, height := h, fontHeight := 5, glyphBits := 8, font := testFont, pin := 0, pinClaimable := true,
    base := 0 }

/-- The configuration of `State.reset`: `W = 16`, `H = 5`, TESTFONT, the one 95_test_vectors.md starts from
(DESIGN CHOICE, unsafe: log entry 2). -/
def Config.atReset : Config := Config.test 16 5

end Sys2Proof
end

