-- ==== Sys2Proof/Machine/State.lean ====
section
/-! DEFINITION. The state of the block, item by item as 10_state.md R20 lists it, with its reset values (R49); the host
agent and the schedule of 00_scope.md R9 as plain data beside it; and the reasons a step can stop. -/

namespace Sys2Proof.Machine

/-- `SER_STATE` (R26). -/
inductive SerState where
  | idle
  | wait
  | send
deriving DecidableEq, Repr

/-- `VKIND` (R32). -/
inductive VKind where
  | none
  | str
  | int
deriving DecidableEq, Repr

/-- The outcome codes a command writes to `ERR` (R181; codes 4 to 15 are never written, U19). -/
inductive ErrCode where
  | none
  | illegal
  | unrenderable
  | textOvf
deriving DecidableEq, Repr

/-- The framebuffer RAM (R35) as (index, colour) pairs in one canonical form (`Memory.wf`): indices strictly rising, no
entry holding 0. An unlisted index holds 0, the reset contents R49 gives. -/
abbrev Memory := List (Nat × Color)

/-- The width of a host access. The block admits 32-bit accesses only (R51); `other` is a burst the platform splits in
some other way. -/
inductive Width where
  | byte
  | half
  | word
  | other
deriving DecidableEq, Repr

/-- One access of a bus master, at an absolute bus address (R12, R213). -/
inductive Access where
  | read (width : Width) (addr : Nat)
  | write (width : Width) (addr : Nat) (value : Word)
deriving DecidableEq, Repr

/-- Who moves: the host (its next bus access), the slot clock, or the reset input (R9, R200). -/
inductive Turn where
  | host
  | slot
  | reset
deriving DecidableEq, Repr

/-- The block has no fault: no command and no slot step stops the machine (R180, R188). Nothing raises one. -/
inductive Fault where
deriving DecidableEq, Repr

/-- The reasons the model gives something no step. -/
inductive Refusal where
  /-- An instruction without a meaning yet. No arm of `exec` answers it. Safe. -/
  | notModelled (mnemonic : String)
  /-- Raised by the host's step for an access that is not 32 bits wide, which R51 refuses. Safe. -/
  | accessWidth
  /-- Raised by the host's step for an address that is not a multiple of 4, which R51 refuses. Safe. -/
  | accessMisaligned
  /-- Raised by the host's step for an address outside the block's window, which R51 refuses. Safe. -/
  | accessOutsideWindow
  /-- Raised by `State.boot` for a configuration that breaks R7's ranges or R8, for which no state exists. Safe. -/
  | badConfig
deriving DecidableEq, Repr

/-- The machine. The first fifteen fields are the block's whole state (R20; `FONT` is part of `cfg`, which nothing
changes). The last three are the model's own: the host agent and the schedule (log entries 3 and 6). -/
structure State where
  color    : Color                 -- COLOR (R21)
  result   : Word                  -- RESULT (R22)
  found    : Bool                  -- FOUND (R23)
  canr     : Bool                  -- CANR (R24)
  err      : ErrCode               -- ERR (R25)
  serState : SerState              -- SER_STATE (R26)
  serK     : Nat                   -- SER_K (R30)
  latchCnt : Nat                   -- LATCH_CNT (R29)
  dout     : Bool                  -- DOUT, true for HIGH (R31)
  vkind    : VKind                 -- VKIND (R32)
  text     : Vector Byte textMax   -- TEXT (R33)
  tlen     : Nat                   -- TLEN (R33)
  vint     : BitVec 32             -- VINT (R34)
  fb       : Memory                -- FB (R35)
  cfg      : Config                -- FONT and the other parameters of R7 (R36)
  bus      : List Access           -- the host's pending accesses, the next one first (R56, R60)
  turns    : List Turn             -- who moves next, the first one first (R9)
  reads    : List Word             -- the words reads returned to the host, the newest first (R55)
deriving DecidableEq, Repr

/-- The state right after reset under configuration `c`: every item at its value of R49. -/
def State.resetOf (c : Config) : State :=
  { color := 0, result := 0, found := false, canr := false, err := .none, serState := .idle, serK := 0,
    latchCnt := latchSlots, dout := false, vkind := .none, text := Vector.replicate textMax 0, tlen := 0, vint := 0,
    fb := [], cfg := c, bus := [], turns := [], reads := [] }

/-- The machine right after reset, with the configuration of `Config.atReset`, nothing on the bus and no turn listed. -/
def State.reset : State := State.resetOf Config.atReset

end Sys2Proof.Machine
end

