-- ==== Sys2Proof/Machine/Ops.lean ====
section
/-! DEFINITION. The named operations over the state: ending a command (00_scope.md R12, 60_exceptions.md R180), the
framebuffer RAM, and its bounds-checked writes (42_framebuffer.md R103, R104). -/

namespace Sys2Proof.Machine

/-- `finish(code)` (R12): the one way a command reports its outcome. The block takes no exception: a failing command
writes its code here, no state is saved and control goes nowhere (R180, R189), so there is no return either. -/
def State.finish (s : State) (code : ErrCode) : State := { s with err := code }

/-- The state with another framebuffer. -/
def State.withFb (s : State) (m : Memory) : State := { s with fb := m }

/-- What entry `i` holds; an unlisted entry holds 0 (R49). -/
def Memory.read : Memory → Nat → Color
  | [], _ => 0#24
  | (k, x) :: rest, i => if k = i then x else Memory.read rest i

/-- Writes entry `i`, keeping the canonical form: writing 0 removes the entry. -/
def Memory.write : Memory → Nat → Color → Memory
  | [], i, v => if v = 0#24 then [] else [(i, v)]
  | (k, x) :: rest, i, v =>
    if i < k then (if v = 0#24 then (k, x) :: rest else (i, v) :: (k, x) :: rest)
    else if i = k then (if v = 0#24 then rest else (i, v) :: rest)
    else (k, x) :: Memory.write rest i v

/-- Every entry below `n` holding `v` (R108). -/
def Memory.filled (n : Nat) (v : Color) : Memory :=
  if v = 0#24 then [] else (List.range n).map (fun i => (i, v))

/-- The canonical form for a framebuffer of `n` entries: indices strictly rising and below `n`, no entry holding 0. -/
abbrev Memory.wf (n : Nat) (m : Memory) : Prop :=
  m.Pairwise (fun a b => a.1 < b.1) ∧ ∀ e ∈ m, e.1 < n ∧ e.2 ≠ 0#24

/-- `fbset(i, v)` (R103) on a framebuffer of `n` entries: a write outside `[0, n)` is dropped. -/
def fbset (n : Nat) (i : Int) (v : Color) (m : Memory) : Memory :=
  if 0 ≤ i ∧ i < n then m.write i.toNat v else m

/-- The linear index of column `x` and row `y`, exact integers (R58, R104). -/
def linearIndex (c : Config) (x y : Int) : Int := y * c.width + x

/-- `fbset_xy(x, y, v)` (R104): only the linear index is checked. -/
def fbsetXY (c : Config) (x y : Int) (v : Color) (m : Memory) : Memory :=
  fbset c.pixels (linearIndex c x y) v m

end Sys2Proof.Machine
end

