-- ==== Sys2Proof/Machine/Operands.lean ====
section
/-! DEFINITION. The operand forms: colours (42_framebuffer.md R100, R101), characters and their glyphs
(41_font_table.md R90 to R94), and the value register read as a string (43_glyph_renderer.md R127). -/

namespace Sys2Proof.Machine

/-- `pack(r, g, b) = g :: r :: b` (R100), taking the channels in word order. -/
def packColor (g r b : Byte) : Color := g ++ r ++ b

/-- `unpack(w) = (r, g, b)` (R101). -/
def unpackColor (w : Color) : Byte × Byte × Byte :=
  (w.extractLsb' 8 8, w.extractLsb' 16 8, w.extractLsb' 0 8)

/-- The place of a character code in the font: the 15 codes of R90, in the order of its table. -/
def fontSlot (c : Byte) : Option (Fin fontChars) :=
  match c.toNat with
  | 0x30 => some 0
  | 0x31 => some 1
  | 0x32 => some 2
  | 0x33 => some 3
  | 0x34 => some 4
  | 0x35 => some 5
  | 0x36 => some 6
  | 0x37 => some 7
  | 0x38 => some 8
  | 0x39 => some 9
  | 0x2D => some 10
  | 0x2B => some 11
  | 0x3A => some 12
  | 0x28 => some 13
  | 0x29 => some 14
  | _ => none

/-- `c in SUPPORTED` (R14, R90). -/
def supported (c : Byte) : Bool := (fontSlot c).isSome

/-- `lookup(c)` (R94): the rows of the character's glyph, or the "not found" signal. -/
def lookup (cfg : Config) (c : Byte) : Option (List Nat) := (fontSlot c).map (fun k => cfg.font[k])

/-- `bitlen(m)` (R11). -/
def bitlen (m : Nat) : Nat := if m = 0 then 0 else Nat.log2 m + 1

/-- The number of significant bits in the widest row (R92). -/
def rowsWidth (rows : List Nat) : Nat := (rows.map bitlen).foldr max 0

/-- `gw(c)` (R92); 0 for a character that has no glyph, whose width no rule reads. -/
def glyphWidth (cfg : Config) (c : Byte) : Nat := rowsWidth ((lookup cfg c).getD [])

/-- Row `r` of a glyph. -/
def glyphRow (rows : List Nat) (r : Nat) : Nat := rows.getD r 0

/-- The code of the decimal digit `d` (R90). -/
def digitCode (d : Nat) : Byte := BitVec.ofNat 8 (0x30 + d)

/-- The decimal digits of `n`, most significant first, no leading zeros, for `n` of at most `fuel` digits (R127). -/
def decDigits : Nat → Nat → List Byte
  | 0, _ => []
  | fuel + 1, n => if n < 10 then [digitCode n] else decDigits fuel (n / 10) ++ [digitCode (n % 10)]

/-- The codes of `'+'` and `'-'` (R90). -/
def plusCode : Byte := 0x2B
def minusCode : Byte := 0x2D

/-- `dec(v)` (R127). Ten digits hold every magnitude of a 32-bit integer. -/
def dec (v : Int) : List Byte :=
  if v < 0 then minusCode :: decDigits 10 v.natAbs else decDigits 10 v.natAbs

/-- The characters of a string value, `TEXT[0] ... TEXT[TLEN-1]` (R33). -/
def textChars (s : State) : List Byte := s.text.toList.take s.tlen

/-- `str_of(sign)` (R127). It is never evaluated for `NONE` (R128, U8). -/
def strOf (s : State) (sign : Bool) : List Byte :=
  match s.vkind with
  | .str => textChars s
  | .int => (if sign ∧ 0 ≤ s.vint.toInt then [plusCode] else []) ++ dec s.vint.toInt
  | .none => []

end Sys2Proof.Machine
end

