-- ==== Sys2Proof/Machine/Flags.lean ====
section
/-! DEFINITION. The flags: `BUSY` and `LATCH`, which are derived (10_state.md R20), and `can_render`, the value of
`CANR` (43_glyph_renderer.md R128). -/

namespace Sys2Proof.Machine

/-- `BUSY = (SER_STATE != IDLE)` (R20, R26). -/
def busy (s : State) : Bool := s.serState != .idle

/-- `LATCH = (LATCH_CNT != 0)` (R20, R29). -/
def latch (s : State) : Bool := s.latchCnt != 0

/-- `can_render` (R128). -/
def canRender (s : State) : Bool :=
  match s.vkind with
  | .str => (textChars s).all supported
  | .int => true
  | .none => false

/-- The 4-bit code of an outcome (R181). -/
def errBits : ErrCode → BitVec 4
  | .none => 0
  | .illegal => 1
  | .unrenderable => 2
  | .textOvf => 3

/-- The code of `VKIND` in `VALSTAT` (R43). -/
def vkindBits : VKind → BitVec 2
  | .none => 0
  | .str => 1
  | .int => 2

/-- The code of `SER_STATE` in `SER` (R45). -/
def serStateBits : SerState → BitVec 2
  | .idle => 0
  | .wait => 1
  | .send => 2

end Sys2Proof.Machine
end

