-- ==== Sys2Proof/Machine/Font.lean ====
section
/-! DEFINITION. The font family (41_font_table.md): GWIDTH and GROW. -/

namespace Sys2Proof.Machine

/-- Writes `RESULT` and `FOUND` from a lookup's value: `RESULT <- 0` where nothing was found (R95, R96). -/
def State.reportLookup (s : State) (value : Option Nat) : State :=
  { s with found := value.isSome, result := BitVec.ofNat 32 (value.getD 0) }

/-- `GWIDTH` (R95). -/
def execGwidth (c : Byte) (s : State) : Host.Outcome State Fault Refusal :=
  .next ((s.reportLookup (if supported c then some (glyphWidth s.cfg c) else none)).finish .none)

/-- `GROW` (R96): a row number of `FH` or more is not found. -/
def execGrow (row c : Byte) (s : State) : Host.Outcome State Fault Refusal :=
  .next ((s.reportLookup
    (if supported c ∧ row.toNat < s.cfg.fontHeight then some (glyphRow ((lookup s.cfg c).getD []) row.toNat)
     else none)).finish .none)

end Sys2Proof.Machine
end

