-- ==== Sys2Proof/Machine/Framebuffer.lean ====
section
/-! DEFINITION. The framebuffer family (42_framebuffer.md): SETCOLOR, SET, SETXY, FILL, CLEAR. -/

namespace Sys2Proof.Machine

/-- `SETCOLOR` (R105). -/
def execSetcolor (g r b : Byte) (s : State) : Host.Outcome State Fault Refusal :=
  .next ({ s with color := packColor g r b }.finish .none)

/-- `SET` (R106). -/
def execSet (idx : Int) (s : State) : Host.Outcome State Fault Refusal :=
  .next ((s.withFb (fbset s.cfg.pixels idx s.color s.fb)).finish .none)

/-- `SETXY` (R107). -/
def execSetxy (x y : Int) (s : State) : Host.Outcome State Fault Refusal :=
  .next ((s.withFb (fbsetXY s.cfg x y s.color s.fb)).finish .none)

/-- `FILL` (R108). -/
def execFill (s : State) : Host.Outcome State Fault Refusal :=
  .next ((s.withFb (Memory.filled s.cfg.pixels s.color)).finish .none)

/-- `CLEAR` (R109). `COLOR` is not changed. -/
def execClear (s : State) : Host.Outcome State Fault Refusal :=
  .next ((s.withFb (Memory.filled s.cfg.pixels (packColor 0 0 0))).finish .none)

end Sys2Proof.Machine
end

