-- ==== Sys2Proof/Machine/Renderer.lean ====
section
/-! DEFINITION. The glyph renderer (43_glyph_renderer.md): painting a glyph, laying out a string, and DRAWG, CANR,
DRAWV. -/

namespace Sys2Proof.Machine

/-- The lit pixels of a glyph as (row, column offset) pairs, in the order R120's loops reach them: offset `j` of row
`r` is lit iff bit `gw - 1 - j` of the row is 1 (R93). -/
def litPixels (fh : Nat) (rows : List Nat) : List (Nat × Nat) :=
  (List.range fh).flatMap fun r =>
    ((List.range (rowsWidth rows)).filter fun j => (glyphRow rows r).testBit (rowsWidth rows - 1 - j)).map fun j => (r, j)

/-- `paint_glyph(c, x, v)` (R120): nothing at a negative column, else every lit pixel through `fbset_xy`. -/
def paintGlyph (cfg : Config) (c : Byte) (x : Int) (v : Color) (m : Memory) : Memory :=
  if x < 0 then m
  else (litPixels cfg.fontHeight ((lookup cfg c).getD [])).foldl (fun m p => fbsetXY cfg (x + p.2) p.1 v m) m

/-- `total_width(s)` (R130). -/
def totalWidth (cfg : Config) (str : List Byte) : Int :=
  ((str.map (glyphWidth cfg)).sum : Nat) + ((str.length : Int) - 1)

/-- `start_x(align, tw)` (R131); `/` rounds toward negative infinity for a positive divisor, as `div` of R11. -/
def startX (cfg : Config) (align : Align) (tw : Int) : Int :=
  match align with
  | .left => 0
  | .right => cfg.width - tw
  | .center => if tw > cfg.width then cfg.width - tw else (cfg.width - tw + 1) / 2

/-- `paint_string(s, x0, v)` (R132): each glyph at the running column, then its width and one spacing column. -/
def paintString (cfg : Config) (v : Color) : List Byte → Int → Memory → Memory
  | [], _, m => m
  | c :: rest, x, m => paintString cfg v rest (x + glyphWidth cfg c + 1) (paintGlyph cfg c x v m)

/-- `DRAWG` (R121). -/
def execDrawg (x : Int) (c : Byte) (s : State) : Host.Outcome State Fault Refusal :=
  if supported c then
    .next (({ s with found := true }.withFb (paintGlyph s.cfg c x s.color s.fb)).finish .none)
  else .next ({ s with found := false }.finish .none)

/-- `CANR` (R129). -/
def execCanr (s : State) : Host.Outcome State Fault Refusal :=
  .next ({ s with canr := canRender s }.finish .none)

/-- `DRAWV` (R133): the check comes before any painting; the empty string paints nothing. -/
def execDrawv (sign : Bool) (align : Align) (s : State) : Host.Outcome State Fault Refusal :=
  let t : State := { s with canr := canRender s }
  if canRender s then
    let str := strOf s sign
    if str.length = 0 then .next (t.finish .none)
    else
      .next ((t.withFb (paintString s.cfg s.color str (startX s.cfg align (totalWidth s.cfg str)) s.fb)).finish .none)
  else .next (t.finish .unrenderable)

end Sys2Proof.Machine
end

