-- ==== Sys2Proof/Machine/Serializer.lean ====
section
/-! DEFINITION. The bit-stream encoder (44_bitstream_encoder.md): TRANSMIT, and the slot clock's step with the
serializer and the latch timer. -/

namespace Sys2Proof.Machine

/-- `TRANSMIT` (R156). The bus takes it only when `BUSY = 0` (R56, `hostStep`); the slot clock sends the frame. -/
def execTransmit (s : State) : Host.Outcome State Fault Refusal :=
  .next ({ s with serState := .wait, serK := 0 }.finish .none)

/-- The level of slot `k` of a bit with value `bit` (R153). -/
def bitLevel (bit : Bool) (k : Nat) : Bool :=
  if k < phaseT3 then false else if k < phaseT3 + phaseT1 then true else bit

/-- The slots of one bit and of one pixel (R150, R154). -/
def bitSlots : Nat := phaseT1 + phaseT2 + phaseT3
def pixelSlots : Nat := 24 * bitSlots

/-- The slots of a frame, `240 * N` (R155). -/
def frameSlots (c : Config) : Nat := pixelSlots * c.pixels

/-- `framelevel(k)` (R154), read from the framebuffer `m`. -/
def frameLevel (m : Memory) (k : Nat) : Bool :=
  bitLevel ((m.read (k / pixelSlots)).getLsbD (23 - (k % pixelSlots) / bitSlots)) (k % bitSlots)

/-- Slot step in `IDLE` (R157). -/
def slotIdle (s : State) : State := { s with dout := false, latchCnt := s.latchCnt - 1 }

/-- Slot step in `SEND` (R159, R160). -/
def slotSend (s : State) : State :=
  if s.serK + 1 = frameSlots s.cfg then
    { s with dout := frameLevel s.fb s.serK, serState := .idle, serK := 0, latchCnt := latchSlots }
  else { s with dout := frameLevel s.fb s.serK, serK := s.serK + 1 }

/-- Slot step in `WAIT` (R158): when the settling interval is over, slot 0 goes out in this same step. -/
def slotWait (s : State) : State :=
  if s.latchCnt > 0 then { s with dout := false, latchCnt := s.latchCnt - 1 }
  else slotSend { s with serState := .send, serK := 0 }

/-- One step of the slot clock, chosen by `SER_STATE` at its start (44_bitstream_encoder.md section 4). -/
def slotStep (s : State) : State :=
  match s.serState with
  | .idle => slotIdle s
  | .wait => slotWait s
  | .send => slotSend s

end Sys2Proof.Machine
end

