-- ==== Sys2Proof/Machine/Value.lean ====
section
/-! DEFINITION. The value register (43_glyph_renderer.md R122): VNONE, VSTR, VPUSH, VINT. -/

namespace Sys2Proof.Machine

/-- `VNONE` (R123). -/
def execVnone (s : State) : Host.Outcome State Fault Refusal :=
  .next ({ s with vkind := .none, tlen := 0, vint := 0 }.finish .none)

/-- `VSTR` (R124). `VINT` is unchanged. -/
def execVstr (s : State) : Host.Outcome State Fault Refusal :=
  .next ({ s with vkind := .str, tlen := 0 }.finish .none)

/-- Appends `c` at position `at'` of a string value: `TEXT[at'] <- c`, `TLEN <- at' + 1` (R125). -/
def State.pushChar (s : State) (at' : Nat) (c : Byte) : State :=
  { s with vkind := .str, text := s.text.setIfInBounds at' c, tlen := at' + 1 }

/-- `VPUSH` (R125): a value of another kind starts a new string, and a full string reports `E_TEXT_OVF`. -/
def execVpush (c : Byte) (s : State) : Host.Outcome State Fault Refusal :=
  if s.vkind ≠ .str then .next ((s.pushChar 0 c).finish .none)
  else if s.tlen = textMax then .next (s.finish .textOvf)
  else .next ((s.pushChar s.tlen c).finish .none)

/-- `VINT` (R126): `sext_32` of the immediate. -/
def execVint (imm : Int) (s : State) : Host.Outcome State Fault Refusal :=
  .next ({ s with vkind := .int, tlen := 0, vint := BitVec.ofInt 32 imm }.finish .none)

end Sys2Proof.Machine
end

