-- ==== Sys2Proof/Machine/Dispatch.lean ====
section
/-! DEFINITION. The command engine's dispatch: each command of the opcode map (30_encoding.md R81) and its meaning. -/

namespace Sys2Proof.Machine

/-- The command engine's step for an accepted command (R27, R57). -/
def exec (i : Instr) (s : State) : Host.Outcome State Fault Refusal :=
  match i with
  | .setcolor g r b => Sys2Proof.Machine.execSetcolor g r b s
  | .set idx => Sys2Proof.Machine.execSet idx s
  | .setxy x y => Sys2Proof.Machine.execSetxy x y s
  | .fill => Sys2Proof.Machine.execFill s
  | .clear => Sys2Proof.Machine.execClear s
  | .drawg x c => Sys2Proof.Machine.execDrawg x c s
  | .gwidth c => Sys2Proof.Machine.execGwidth c s
  | .grow row c => Sys2Proof.Machine.execGrow row c s
  | .vnone => Sys2Proof.Machine.execVnone s
  | .vstr => Sys2Proof.Machine.execVstr s
  | .vpush c => Sys2Proof.Machine.execVpush c s
  | .vint imm => Sys2Proof.Machine.execVint imm s
  | .canr => Sys2Proof.Machine.execCanr s
  | .drawv sign align => Sys2Proof.Machine.execDrawv sign align s
  | .transmit => Sys2Proof.Machine.execTransmit s

end Sys2Proof.Machine
end

