-- ==== Sys2Proof/Machine/Bus.lean ====
section
/-! DEFINITION. The bus interface: the register map (10_state.md R37 to R48), which accesses are admitted
(20_memory.md R51), and the write of a command word (R38). -/

namespace Sys2Proof.Machine

/-- `STATUS` (R39). -/
def statusWord (s : State) : Word :=
  0#23 ++ BitVec.ofBool s.dout ++ errBits s.err ++ BitVec.ofBool s.canr ++ BitVec.ofBool s.found ++
    BitVec.ofBool (latch s) ++ BitVec.ofBool (busy s)

/-- `COLOR` (R41). -/
def colorWord (s : State) : Word := 0#8 ++ s.color

/-- `CONFIG` (R42). -/
def configWord (s : State) : Word :=
  0#3 ++ BitVec.ofNat 5 s.cfg.fontHeight ++ BitVec.ofNat 12 s.cfg.height ++ BitVec.ofNat 12 s.cfg.width

/-- `VALSTAT` (R43). -/
def valstatWord (s : State) : Word := 0#16 ++ BitVec.ofNat 8 s.tlen ++ 0#6 ++ vkindBits s.vkind

/-- `SER` (R45). -/
def serWord (s : State) : Word := BitVec.ofNat 24 s.serK ++ 0#6 ++ serStateBits s.serState

/-- `LATCHCNT` (R46). -/
def latchWord (s : State) : Word := BitVec.ofNat 32 s.latchCnt

/-- `TEXTk` (R47). -/
def textWord (s : State) (k : Nat) : Word := if k < s.tlen then 0#24 ++ s.text.getD k 0 else 0

/-- `FBi` (R48). -/
def fbWord (s : State) (i : Nat) : Word := if i < s.cfg.pixels then 0#8 ++ s.fb.read i else 0

/-- What a 32-bit read at the aligned offset `off` of the window returns (R37); `CMD` (R38) and every offset not
listed (R53) read 0. -/
def readReg (s : State) (off : Nat) : Word :=
  if off = 0x004 then statusWord s
  else if off = 0x008 then s.result
  else if off = 0x00C then colorWord s
  else if off = 0x010 then configWord s
  else if off = 0x014 then valstatWord s
  else if off = 0x018 then s.vint
  else if off = 0x01C then serWord s
  else if off = 0x020 then latchWord s
  else if 0x100 ≤ off ∧ off < 0x100 + 4 * textMax then textWord s ((off - 0x100) / 4)
  else if 0x1000 ≤ off ∧ off < 0x1000 + 4 * fbMax then fbWord s ((off - 0x1000) / 4)
  else 0

/-- The offset of `CMD` (R37). -/
def cmdOffset : Nat := 0

/-- The offset of an admitted access, or the reason R51 refuses it. -/
def windowOffset (c : Config) (width : Width) (addr : Nat) : Except Refusal Nat :=
  if width ≠ .word then .error .accessWidth
  else if addr < c.base ∨ c.base + windowBytes ≤ addr then .error .accessOutsideWindow
  else if (addr - c.base) % 4 ≠ 0 then .error .accessMisaligned
  else .ok (addr - c.base)

/-- An accepted write of `w` to `CMD`: the command engine decodes it and executes it as one step (R38). An illegal word
only writes `E_ILLEGAL` (R82, R182). -/
def acceptCommand (w : Word) (s : State) : Host.Outcome State Fault Refusal :=
  match decode w with
  | .ok i => exec i s
  | .error _ => .next (s.finish .illegal)

/-- The state after the host's access left the bus. -/
def State.popBus (s : State) : State := { s with bus := s.bus.tail }

/-- The host's pending access is a `CMD` write that `BUSY = 1` holds (R56). -/
def cmdHeld (s : State) : Bool :=
  match s.bus with
  | .write .word addr _ :: _ => busy s && addr == s.cfg.base + cmdOffset
  | _ => false

/-- One step of the host: its next access completes. A read returns the register's value and changes nothing else
(R55); a write to `CMD` is held while `BUSY = 1`, with no state changed (R56); any other write is ignored (R53, R54); an
access the block does not admit is refused (R51). With no access pending nothing happens. -/
def hostStep (s : State) : Host.Outcome State Fault Refusal :=
  match s.bus with
  | [] => .next s
  | .read width addr :: _ =>
    match windowOffset s.cfg width addr with
    | .error r => .refused r
    | .ok off => .next { s.popBus with reads := readReg s off :: s.reads }
  | .write width addr v :: _ =>
    match windowOffset s.cfg width addr with
    | .error r => .refused r
    | .ok off =>
      if off = cmdOffset then (if busy s then .next s else acceptCommand v s.popBus)
      else .next s.popBus

end Sys2Proof.Machine
end

