-- ==== Sys2Proof/Machine/Agents.lean ====
section
/-! DEFINITION. The agents and their schedule (00_scope.md R9), the reset input (70_reset_and_hazards.md R200), and the
refusal of a configuration (R8). -/

namespace Sys2Proof.Machine

/-- Who moves next: the first of `turns`. Where no turn is listed, the host's pending access goes first unless it is
held, and else the slot clock runs, so that no agent is starved (log entry 3). -/
def mover (s : State) : Turn :=
  match s.turns with
  | t :: _ => t
  | [] => if s.bus = [] ∨ cmdHeld s then .slot else .host

/-- The state after a turn was taken. -/
def State.popTurn (s : State) : State := { s with turns := s.turns.tail }

/-- The reset input (R200): every item of the block at its reset value of R49, from any state, in one step. The
configuration stays, and the host's side is not the block's (log entry 8). -/
def resetStep (s : State) : State :=
  { State.resetOf s.cfg with bus := s.bus, turns := s.turns, reads := s.reads }

/-- The step of the agent that moves. -/
def agentStep (t : Turn) (s : State) : Host.Outcome State Fault Refusal :=
  match t with
  | .host => hostStep s
  | .slot => .next (slotStep s)
  | .reset => .next (resetStep s)

/-- Building the block (R7, R8, R186): a configuration that breaks a constraint, or whose pin cannot be claimed, is
refused and no state exists for it. -/
def State.boot (c : Config) : Host.Outcome State Fault Refusal :=
  if c.Wf then .next (State.resetOf c) else .refused .badConfig

/-- The host writes the command word `w` as its next access, and it is the host's turn. -/
def State.presentCommand (s : State) (w : Word) : State :=
  { s with bus := .write .word (s.cfg.base + cmdOffset) w :: s.bus, turns := .host :: s.turns }

end Sys2Proof.Machine
end

