-- ==== Sys2Proof/Machine/Step.lean ====
section
/-! DEFINITION. One step of the machine: the agent whose turn it is moves (00_scope.md R9, 20_memory.md R60). The block
fetches nothing (R63): a command reaches it as a host write to `CMD`. -/

namespace Sys2Proof.Machine

/-- One step: the agent that moves takes its turn. -/
def step (s : State) : Host.Outcome State Fault Refusal := agentStep (mover s) s.popTurn

/-- `s` with the command whose bits are `w` written to `CMD` as the host's next access, and the host's turn next, so that
the next step runs it (log entry 9). -/
def State.withFetchWord (s : State) (nbits w : Nat) : State := s.presentCommand (tableWord nbits w)

end Sys2Proof.Machine
end

