-- ==== Sys2Proof/Machine/Assembler.lean ====
section
/-! DEFINITION. Assembler text (30_encoding.md R87) and the pseudo-instructions (R88): what a line of text means as
commands. The machine does not depend on it. -/

namespace Sys2Proof.Machine

/-- The pseudo-instructions of R88. A colour's channels stand in the text's order red, green, blue; an omitted
operand is `none`. -/
inductive Pseudo where
  | pset (idx : Int) (r g b : Byte)
  | pxy (x y : Int) (r g b : Byte)
  | fillc (r g b : Byte)
  | glyph (c : Byte) (x : Int) (r g b : Byte)
  | text (str : List Byte)
  | drawt (str : List Byte) (r g b : Byte) (align : Option Align)
  | drawi (v : Int) (r g b : Byte) (align : Option Align) (sign : Option Bool)
deriving DecidableEq, Repr

/-- `text "s"`: refused for a string longer than `TEXT_MAX` (R88). -/
def expandText (str : List Byte) : Option (List Instr) :=
  if str.length ≤ textMax then some (.vstr :: str.map .vpush) else none

/-- The commands a pseudo-instruction stands for (R88); an omitted `align` is `center`, an omitted `sign` is 0 (R87). -/
def Pseudo.expand : Pseudo → Option (List Instr)
  | .pset idx r g b => some [.setcolor g r b, .set idx]
  | .pxy x y r g b => some [.setcolor g r b, .setxy x y]
  | .fillc r g b => some [.setcolor g r b, .fill]
  | .glyph c x r g b => some [.setcolor g r b, .drawg x c]
  | .text str => expandText str
  | .drawt str r g b align =>
    (expandText str).map (· ++ [.setcolor g r b, .drawv false (align.getD .center)])
  | .drawi v r g b align sign => some [.vint v, .setcolor g r b, .drawv (sign.getD false) (align.getD .center)]

/-- One token of a line: a bare word or number, a character operand, a string operand, or the comma between operands. -/
inductive Token where
  | word (cs : List Char)
  | char (c : Char)
  | str (cs : List Char)
  | comma
deriving DecidableEq, Repr

/-- Where the reader of a line stands: in plain text, after an opening quote mark, after the quoted character, or inside
a string. Collected characters stand in reverse. -/
inductive LexMode where
  | plain (acc : List Char)
  | open'
  | close (c : Char)
  | str (acc : List Char)

/-- The quote marks around a character and around a string. -/
def charQuote : Char := Char.ofNat 0x27
def strQuote : Char := Char.ofNat 0x22

/-- A collected bare word before the tokens that follow it. -/
def flushWord (acc : List Char) (rest : List Token) : List Token :=
  if acc = [] then rest else .word acc.reverse :: rest

/-- The tokens of a line; spaces separate tokens (log entry 16). -/
def lexLine : List Char → LexMode → Option (List Token)
  | [], .plain acc => some (flushWord acc [])
  | [], _ => none
  | c :: rest, .plain acc =>
    if c = charQuote then (if acc = [] then lexLine rest .open' else none)
    else if c = strQuote then (if acc = [] then lexLine rest (.str []) else none)
    else if c = ',' then (lexLine rest (.plain [])).map (fun ts => flushWord acc (.comma :: ts))
    else if c = ' ' then (lexLine rest (.plain [])).map (flushWord acc)
    else lexLine rest (.plain (c :: acc))
  | c :: rest, .open' => lexLine rest (.close c)
  | c :: rest, .close d =>
    if c = charQuote then (lexLine rest (.plain [])).map (.char d :: ·) else none
  | c :: rest, .str acc =>
    if c = strQuote then (lexLine rest (.plain [])).map (.str acc.reverse :: ·) else lexLine rest (.str (c :: acc))

/-- Comma-separated operands. -/
def operandList : List Token → Option (List Token)
  | [] => some []
  | [.comma] => none
  | [t] => some [t]
  | .comma :: _ => none
  | t :: .comma :: rest => if rest = [] then none else (operandList rest).map (t :: ·)
  | _ :: _ :: _ => none

/-- The value of a digit in the given base. -/
def digitValue (base : Nat) (c : Char) : Option Nat :=
  let n := c.toNat
  let d := if 0x30 ≤ n ∧ n ≤ 0x39 then n - 0x30 else if 0x61 ≤ n ∧ n ≤ 0x66 then n - 0x61 + 10
    else if 0x41 ≤ n ∧ n ≤ 0x46 then n - 0x41 + 10 else base
  if d < base then some d else none

/-- The value of a non-empty run of digits. -/
def digitsValue (base : Nat) (cs : List Char) : Option Nat :=
  if cs = [] then none
  else cs.foldl (fun acc c => acc.bind (fun a => (digitValue base c).map (fun d => a * base + d))) (some 0)

/-- An integer of R87: decimal, or hexadecimal after `0x`. -/
def natText : List Char → Option Nat
  | '0' :: 'x' :: cs => digitsValue 16 cs
  | cs => digitsValue 10 cs

/-- An integer of R87 with its leading `-`, if any. -/
def intText : List Char → Option Int
  | '-' :: cs => (natText cs).map (fun n => -(n : Int))
  | cs => (natText cs).map (fun n => (n : Int))

/-- An integer operand. -/
def intOperand : Token → Option Int
  | .word cs => intText cs
  | _ => none

/-- An integer operand in `0..255`. -/
def byteOperand (t : Token) : Option Byte :=
  (intOperand t).bind fun v => if 0 ≤ v ∧ v ≤ 255 then some (BitVec.ofInt 8 v) else none

/-- The code of an ASCII character (R13). -/
def charCode (c : Char) : Option Byte := if c.toNat < 128 then some (BitVec.ofNat 8 c.toNat) else none

/-- A character operand: quoted, or an integer in `0..255` (R87). -/
def charOperand : Token → Option Byte
  | .char c => charCode c
  | t => byteOperand t

/-- A string operand: the codes of its characters. -/
def strOperand : Token → Option (List Byte)
  | .str cs => cs.mapM charCode
  | _ => none

/-- An alignment operand (R87). -/
def alignOperand : Token → Option Align
  | .word cs =>
    if cs = "left".toList then some .left else if cs = "right".toList then some .right
    else if cs = "center".toList then some .center else none
  | _ => none

/-- A sign operand, `0` or `1` (R87). -/
def signOperand (t : Token) : Option Bool :=
  (intOperand t).bind fun v => if v = 0 then some false else if v = 1 then some true else none

/-- The optional operands `[align [, sign]]`. -/
def alignSignOperands : List Token → Option (Option Align × Option Bool)
  | [] => some (none, none)
  | [a] => (alignOperand a).map (fun x => (some x, none))
  | [a, b] => (alignOperand a).bind (fun x => (signOperand b).map (fun y => (some x, some y)))
  | _ => none

/-- Three channel operands in the text's order, red, green, blue. -/
def rgbOperands (r g b : Token) : Option (Byte × Byte × Byte) :=
  (byteOperand r).bind fun r => (byteOperand g).bind fun g => (byteOperand b).map fun b => (r, g, b)

/-- The commands of one mnemonic with its operands: a command of R87 or a pseudo-instruction of R88. -/
def assembleParts (mn : List Char) (ops : List Token) : Option (List Instr) :=
  match ops with
  | [] =>
    if mn = "fill".toList then some [.fill] else if mn = "clear".toList then some [.clear]
    else if mn = "vnone".toList then some [.vnone] else if mn = "vstr".toList then some [.vstr]
    else if mn = "canr".toList then some [.canr] else if mn = "transmit".toList then some [.transmit]
    else if mn = "drawv".toList then some [.drawv false .center] else none
  | [a] =>
    if mn = "set".toList then (intOperand a).map (fun v => [.set v])
    else if mn = "vint".toList then (intOperand a).map (fun v => [.vint v])
    else if mn = "gwidth".toList then (charOperand a).map (fun c => [.gwidth c])
    else if mn = "vpush".toList then (charOperand a).map (fun c => [.vpush c])
    else if mn = "text".toList then (strOperand a).bind (fun t => (Pseudo.text t).expand)
    else if mn = "drawv".toList then (alignOperand a).map (fun x => [.drawv false x])
    else none
  | [a, b] =>
    if mn = "setxy".toList then (intOperand a).bind (fun x => (intOperand b).map (fun y => [.setxy x y]))
    else if mn = "drawg".toList then (charOperand a).bind (fun c => (intOperand b).map (fun x => [.drawg x c]))
    else if mn = "grow".toList then (charOperand a).bind (fun c => (byteOperand b).map (fun r => [.grow r c]))
    else if mn = "drawv".toList then (alignOperand a).bind (fun x => (signOperand b).map (fun y => [.drawv y x]))
    else none
  | [a, b, c] =>
    if mn = "setcolor".toList then (rgbOperands a b c).map (fun p => [.setcolor p.2.1 p.1 p.2.2])
    else if mn = "fillc".toList then (rgbOperands a b c).bind (fun p => (Pseudo.fillc p.1 p.2.1 p.2.2).expand)
    else none
  | a :: b :: c :: d :: rest =>
    if mn = "pset".toList ∧ rest = [] then
      (intOperand a).bind fun v => (rgbOperands b c d).bind fun p => (Pseudo.pset v p.1 p.2.1 p.2.2).expand
    else if mn = "drawt".toList then
      (strOperand a).bind fun t => (rgbOperands b c d).bind fun p => (alignSignOperands rest).bind fun q =>
        if q.2 = none then (Pseudo.drawt t p.1 p.2.1 p.2.2 q.1).expand else none
    else if mn = "drawi".toList then
      (intOperand a).bind fun v => (rgbOperands b c d).bind fun p => (alignSignOperands rest).bind fun q =>
        (Pseudo.drawi v p.1 p.2.1 p.2.2 q.1 q.2).expand
    else match rest with
      | [e] =>
        if mn = "pxy".toList then
          (intOperand a).bind fun x => (intOperand b).bind fun y => (rgbOperands c d e).bind fun p =>
            (Pseudo.pxy x y p.1 p.2.1 p.2.2).expand
        else if mn = "glyph".toList then
          (charOperand a).bind fun ch => (intOperand b).bind fun x => (rgbOperands c d e).bind fun p =>
            (Pseudo.glyph ch x p.1 p.2.1 p.2.2).expand
        else none
      | _ => none

/-- The command words of one line of text; refused when an operand is out of its range, never truncated (R87). -/
def assembleLine (line : List Char) : Option (List Word) :=
  (lexLine line (.plain [])).bind fun ts =>
    match ts with
    | .word mn :: rest => (operandList rest).bind fun ops => (assembleParts mn ops).bind fun is =>
        if ∀ i ∈ is, i.WellFormed then some (is.map encode) else none
    | _ => none

end Sys2Proof.Machine
end

