-- ==== Sys2Proof/Safety.lean ====
section
/-! DEFINITION. What statements speak of: the invariant of the machine's states, runs of the slot clock alone with the
levels they put on the wire (44_bitstream_encoder.md), and the runs of the whole machine with their wire output and their
end (70_reset_and_hazards.md R214). -/

namespace Sys2Proof.Machine

/-- What the value register always satisfies: a string fits the buffer, only a string has a length (R33), and the
integer is one `VINT` can load (R34). -/
abbrev State.valueOk (s : State) : Prop :=
  s.tlen ≤ textMax ∧ (s.vkind ≠ .str → s.tlen = 0) ∧ -(2 ^ 23) ≤ s.vint.toInt ∧ s.vint.toInt ≤ 2 ^ 23 - 1

/-- What the serializer always satisfies outside `SEND`: no slot index (R30), and the line is LOW once a settling slot
has elapsed since the frame's last slot (R157, R158; log entry 7). -/
abbrev State.restOk (s : State) : Prop :=
  s.serState ≠ .send → s.serK = 0 ∧ (s.latchCnt < latchSlots → s.dout = false)

/-- What the serializer always satisfies in `SEND`: the next slot is one of the frame (R30), the settling interval is
over (R161), and the line carries the slot before it (R154, R159). -/
abbrev State.sendOk (s : State) : Prop :=
  s.serState = .send →
    (1 ≤ s.serK ∧ s.serK < frameSlots s.cfg) ∧ s.latchCnt = 0 ∧ s.dout = frameLevel s.fb (s.serK - 1)

/-- The machine's invariant: it holds after reset and every step keeps it. -/
abbrev State.Inv (s : State) : Prop :=
  s.cfg.Wf ∧ Memory.wf s.cfg.pixels s.fb ∧ s.valueOk ∧ s.latchCnt ≤ latchSlots ∧ s.restOk ∧ s.sendOk

/-- The state after `n` steps of the slot clock with no step of another agent between them. -/
def slotSteps : Nat → State → State
  | 0, s => s
  | n + 1, s => slotSteps n (slotStep s)

/-- The levels `DOUT` takes in those `n` steps, in order. -/
def wire : Nat → State → List Bool
  | 0, _ => []
  | n + 1, s => (slotStep s).dout :: wire n (slotStep s)

/-- The wire output of `n` steps of the machine: the level of `DOUT` in every step of the slot clock among them, in order,
whatever steps of the host or of reset stand between (R214). -/
def runWire : Nat → State → List Bool
  | 0, _ => []
  | n + 1, s =>
    match step s with
    | .next t => if mover s = .slot then t.dout :: runWire n t else runWire n t
    | .fault _ => []
    | .refused _ => []

/-- The host writes the command words `ws` to `CMD`, in order, as its next accesses (R214). -/
def State.submit (s : State) (ws : List Word) : State :=
  { s with bus := s.bus ++ ws.map (.write .word (s.cfg.base + cmdOffset)) }

/-- A run of the host's accesses has ended: every access was taken and the serializer is idle (R214). -/
abbrev State.ended (s : State) : Prop := s.bus = [] ∧ s.serState = .idle

/-- The run from `s` ends after `n` steps, in `t`: there, and not before, every access was taken and the serializer is
idle (R214). -/
def runEnds (n : Nat) (s t : State) : Prop :=
  Host.Core.run Sys2Proof.core n s = .next t ∧ t.ended ∧
    ∀ m u, m < n → Host.Core.run Sys2Proof.core m s = .next u → ¬ u.ended

end Sys2Proof.Machine
end

