-- ==== Sys2Proof/Certificates/Slice0/Obligations.lean ====
section
/-! DEFINITION. The statements for the provers. Each formalises the rules of spec/ its docstring and OBLIGATIONS.json
name. The configuration is any one a state carries, never a chosen one, unless a statement says so. -/

namespace Sys2Proof.Spec

open Sys2Proof.Machine

/-- The bits that the formats of 30_encoding.md R72 mark `0`, opcode by opcode. -/
def reservedMask (op : Nat) : Word :=
  match op with
  | 0x1 | 0x2 | 0x3 | 0x6 | 0xB => 0x0F000000
  | 0x4 | 0x5 | 0xC | 0xE => 0x0FFFFFFF
  | 0x7 | 0xA => 0x0FFFFF00
  | 0x8 => 0x0FFF0000
  | 0x9 => 0x0FFFFFFC
  | 0xD => 0x0FFFFFF8
  | _ => 0

/-- The opcode of a word, `w[31:28]` (R71). -/
def op (w : Word) : Nat := w.toNat / 2 ^ 28

/-- The field that R84 speaks of, `w[1:0]`. -/
def low2 (w : Word) : Nat := w.toNat % 4

/-- R82: a reserved opcode. -/
def badOpcode (w : Word) : Prop := op w = 0x0 ∨ op w = 0xF
/-- R83: a set reserved bit. -/
def badBits (w : Word) : Prop := w &&& reservedMask (op w) ≠ 0
/-- R84: a reserved field value. -/
def badField (w : Word) : Prop := (op w = 0x9 ∧ (low2 w = 2 ∨ low2 w = 3)) ∨ (op w = 0xD ∧ low2 w = 3)

/-- The 15 codes of 41_font_table.md R90. -/
def supportedCodes : List Byte :=
  [0x30, 0x31, 0x32, 0x33, 0x34, 0x35, 0x36, 0x37, 0x38, 0x39, 0x2D, 0x2B, 0x3A, 0x28, 0x29]

/-- Entry `k` is under a lit pixel of the glyph of `c` painted at column `x` (43_glyph_renderer.md R120, 41_font_table.md
R93): the column is not negative, and for some row `r` and offset `j` of the glyph's box, bit `gw - 1 - j` of the row is
1 and the linear index of `(x + j, r)` is `k`. -/
def litAt (cfg : Config) (c : Byte) (x : Int) (k : Nat) : Prop :=
  0 ≤ x ∧ ∃ rows, lookup cfg c = some rows ∧ ∃ r j : Nat, r < cfg.fontHeight ∧ j < glyphWidth cfg c ∧
    (rows.getD r 0).testBit (glyphWidth cfg c - 1 - j) = true ∧ (k : Int) = r * cfg.width + (x + j)

/-- The column of character `i` of a string laid out from `x0`: each earlier glyph takes its width and one spacing
column (R132). -/
def columnOf (cfg : Config) (str : List Byte) (x0 : Int) (i : Nat) : Int :=
  x0 + ((str.take i).map (fun c => (glyphWidth cfg c : Int) + 1)).sum

/-- Entry `k` is under a lit pixel of the string painted from `x0`. -/
def litInString (cfg : Config) (str : List Byte) (x0 : Int) (k : Nat) : Prop :=
  ∃ i c, str[i]? = some c ∧ litAt cfg c (columnOf cfg str x0 i) k

/-- `start_x(align, tw)` with the ceiling of a rational, as R131 writes it. -/
def startColumn (w : Int) (align : Align) (tw : Int) : Int :=
  match align with
  | .left => 0
  | .right => w - tw
  | .center => if tw > w then w - tw else ⌈((w - tw : Int) : ℚ) / 2⌉

/-- `can_render` as R128 writes it. -/
def renderable (s : State) : Prop :=
  (s.vkind = .str ∧ ∀ c ∈ s.text.toList.take s.tlen, c ∈ supportedCodes) ∨ s.vkind = .int

/-- The number that a run of decimal digit codes writes. -/
def digitsNumber (ds : List Byte) : Nat := ds.foldl (fun acc d => 10 * acc + (d.toNat - 0x30)) 0

/-- A canonical run of decimal digits: not empty, digit codes only, no leading zero unless it is "0" (R127). -/
def canonicalDigits (ds : List Byte) : Prop :=
  ds ≠ [] ∧ (∀ d ∈ ds, 0x30 ≤ d.toNat ∧ d.toNat ≤ 0x39) ∧ (ds.head? = some 0x30 → ds = [0x30])

/-- The ten slots of one bit on the wire (44_bitstream_encoder.md R151, R152). -/
def bitPattern (bit : Bool) : List Bool :=
  if bit then [false, false, false, true, true, true, true, true, true, true]
  else [false, false, false, true, true, false, false, false, false, false]

/-- The wire levels of a whole frame: pixel by pixel in index order, bit 23 first (R154). -/
def framePattern (n : Nat) (m : Memory) : List Bool :=
  (List.range n).flatMap fun p => (List.range 24).flatMap fun b => bitPattern ((m.read p).getLsbD (23 - b))

/-- An access that 20_memory.md R51 admits, at offset `off` of the window. -/
def admitted (cfg : Config) (width : Width) (addr off : Nat) : Prop :=
  width = .word ∧ addr = cfg.base + off ∧ off % 4 = 0 ∧ off < 0x10000

/-- A register at offset `off` of the window is read-only and reading it has no side effect (R54, R55): on the host's
turn a read only answers the register's word, and a write changes nothing; either way the access is used up. -/
def readOnlyAt (off : Nat) : Prop :=
  ∀ (s : State) (ts : List Turn) (rest : List Access), s.turns = .host :: ts →
    (s.bus = .read .word (s.cfg.base + off) :: rest →
      step s = .next { s with turns := ts, bus := rest, reads := readReg s off :: s.reads }) ∧
    (∀ v, s.bus = .write .word (s.cfg.base + off) v :: rest → step s = .next { s with turns := ts, bus := rest })

/-- The width and the address of a host access. -/
def accessPlace : Access → Width × Nat
  | .read w a => (w, a)
  | .write w a _ => (w, a)

/-- The run of the command words `ws` from an idle state when slot steps come only where a command is held or the frame is
still to be sent: the state it ends in and its wire output. A word that starts a transmission puts the settling slots
that are left and the whole frame on the wire before the next word is accepted (R56, R158, R214). -/
def runOf (s : State) : List Word → State × List Bool
  | [] => (s, [])
  | w :: ws =>
    match acceptCommand w s with
    | .next t =>
      if t.serState = .idle then runOf t ws
      else
        let u := runOf { t with serState := .idle, serK := 0, latchCnt := 80000,
                                dout := (t.fb.read (t.cfg.pixels - 1)).getLsbD 0 } ws
        (u.1, List.replicate t.latchCnt false ++ framePattern t.cfg.pixels t.fb ++ u.2)
    | .fault _ => (s, [])
    | .refused _ => (s, [])

/-- An integer as R87 writes it: decimal, or hexadecimal with a `0x` prefix, after `-` when it is negative. -/
def numText (hex : Bool) (v : Int) : List Char :=
  (if v < 0 then ['-'] else []) ++
    (if hex then '0' :: 'x' :: Nat.toDigits 16 v.natAbs else Nat.toDigits 10 v.natAbs)

/-- `t` is an integer operand with the value `v`. -/
def isIntText (t : List Char) (v : Int) : Prop := ∃ hex, t = numText hex v

/-- `t` is a character operand with the value `v`: an integer, or an ASCII character between quote marks (R87). -/
def isCharText (t : List Char) (v : Int) : Prop :=
  isIntText t v ∨ ∃ ch : Char, ch.toNat < 128 ∧ v = ch.toNat ∧ t = ['\'', ch, '\'']

/-- The text of an alignment (R87). -/
def alignText : Align → List Char
  | .left => "left".toList
  | .right => "right".toList
  | .center => "center".toList

/-- A line of text: the mnemonic, then the operands with commas between them (R87). -/
def lineText (mn : String) : List (List Char) → List Char
  | [] => mn.toList
  | t :: ts => mn.toList ++ ' ' :: t ++ ts.flatMap (fun u => ',' :: ' ' :: u)

/-- The range of an 8-bit operand (R87). -/
abbrev byteRange (v : Int) : Prop := 0 ≤ v ∧ v ≤ 255

/-- The operands of a pseudo-instruction are in the ranges R87 gives the commands it expands to. -/
def pseudoInRange : Pseudo → Prop
  | .pset idx _ _ _ => -8388608 ≤ idx ∧ idx ≤ 8388607
  | .pxy x y _ _ _ => (-2048 ≤ x ∧ x ≤ 2047) ∧ -2048 ≤ y ∧ y ≤ 2047
  | .glyph _ x _ _ _ => -32768 ≤ x ∧ x ≤ 32767
  | .drawi v _ _ _ _ _ => -8388608 ≤ v ∧ v ≤ 8388607
  | .fillc _ _ _ | .text _ | .drawt _ _ _ _ _ => True

/-- The commands that may change `COLOR`, and likewise below for the other items of 10_state.md R20's table. -/
def writesColor : Instr → Prop
  | .setcolor _ _ _ => True
  | _ => False
def writesResult : Instr → Prop
  | .gwidth _ | .grow _ _ => True
  | _ => False
def writesFound : Instr → Prop
  | .gwidth _ | .grow _ _ | .drawg _ _ => True
  | _ => False
def writesCanr : Instr → Prop
  | .canr | .drawv _ _ => True
  | _ => False
def writesSerializer : Instr → Prop
  | .transmit => True
  | _ => False
def writesVkindTlen : Instr → Prop
  | .vnone | .vstr | .vpush _ | .vint _ => True
  | _ => False
def writesText : Instr → Prop
  | .vpush _ => True
  | _ => False
def writesVint : Instr → Prop
  | .vnone | .vint _ => True
  | _ => False
def writesFb : Instr → Prop
  | .set _ | .setxy _ _ | .fill | .clear | .drawg _ _ | .drawv _ _ => True
  | _ => False

end Sys2Proof.Spec

open Sys2Proof Sys2Proof.Machine Sys2Proof.Spec

/-! ### Encoding (30_encoding.md) -/

/-- R89: decoding inverts encoding on every well-formed command, and encoding inverts decoding on every word that
decodes to a legal command. -/
def Obligations.DecodeAndEncodeAgree : Prop :=
  (∀ i : Instr, i.WellFormed → decode (encode i) = .ok i) ∧
  (∀ (w : Word) (i : Instr), decode w = .ok i → i.WellFormed ∧ encode i = w)

/-- R85: every 32-bit word is exactly one of a legal command and illegal under R82 to R84, with the name of the first
rule that R86's check order finds broken. -/
def Obligations.EveryWordIsACommandOrIllegal : Prop :=
  ∀ w : Word,
    (decode w = .error .reservedOpcode ↔ badOpcode w) ∧
    (decode w = .error .reservedBits ↔ ¬ badOpcode w ∧ badBits w) ∧
    (decode w = .error .reservedField ↔ ¬ badOpcode w ∧ ¬ badBits w ∧ badField w) ∧
    ((∃ i, decode w = .ok i) ↔ ¬ badOpcode w ∧ ¬ badBits w ∧ ¬ badField w)

/-- The rows of the opcode table (R81, R105 and the other command rules): a word that has a row's match under its mask
(and, for `DRAWV`, not the excluded align 3) decodes to that row's command with the fields R72 places. -/
def Obligations.OpcodeTableRowsDecode : Prop :=
  ∀ w : Word,
    (w &&& 0xFF000000 = 0x10000000 →
      decode w = .ok (.setcolor (w.extractLsb' 16 8) (w.extractLsb' 8 8) (w.extractLsb' 0 8))) ∧
    (w &&& 0xFF000000 = 0x20000000 → decode w = .ok (.set (w.extractLsb' 0 24).toInt)) ∧
    (w &&& 0xFF000000 = 0x30000000 →
      decode w = .ok (.setxy (w.extractLsb' 12 12).toInt (w.extractLsb' 0 12).toInt)) ∧
    (w = 0x40000000 → decode w = .ok .fill) ∧
    (w = 0x50000000 → decode w = .ok .clear) ∧
    (w &&& 0xFF000000 = 0x60000000 → decode w = .ok (.drawg (w.extractLsb' 8 16).toInt (w.extractLsb' 0 8))) ∧
    (w &&& 0xFFFFFF00 = 0x70000000 → decode w = .ok (.gwidth (w.extractLsb' 0 8))) ∧
    (w &&& 0xFFFF0000 = 0x80000000 → decode w = .ok (.grow (w.extractLsb' 8 8) (w.extractLsb' 0 8))) ∧
    (w = 0x90000000 → decode w = .ok .vnone) ∧
    (w = 0x90000001 → decode w = .ok .vstr) ∧
    (w &&& 0xFFFFFF00 = 0xA0000000 → decode w = .ok (.vpush (w.extractLsb' 0 8))) ∧
    (w &&& 0xFF000000 = 0xB0000000 → decode w = .ok (.vint (w.extractLsb' 0 24).toInt)) ∧
    (w = 0xC0000000 → decode w = .ok .canr) ∧
    (w &&& 0xFFFFFFFB = 0xD0000000 → decode w = .ok (.drawv (w.getLsbD 2) .left)) ∧
    (w &&& 0xFFFFFFFB = 0xD0000001 → decode w = .ok (.drawv (w.getLsbD 2) .right)) ∧
    (w &&& 0xFFFFFFFB = 0xD0000002 → decode w = .ok (.drawv (w.getLsbD 2) .center)) ∧
    (w = 0xE0000000 → decode w = .ok .transmit)

/-- The example words of R81's table, one for each row: a sanity statement. -/
def Obligations.ExampleWordsDecode : Prop :=
  decode 0x10000300 = .ok (.setcolor 0 3 0) ∧ decode 0x20FFFFFF = .ok (.set (-1)) ∧
  decode 0x30FFF001 = .ok (.setxy (-1) 1) ∧ decode 0x40000000 = .ok .fill ∧ decode 0x50000000 = .ok .clear ∧
  decode 0x60000734 = .ok (.drawg 7 0x34) ∧ decode 0x70000039 = .ok (.gwidth 0x39) ∧
  decode 0x80000230 = .ok (.grow 2 0x30) ∧ decode 0x90000000 = .ok .vnone ∧ decode 0x90000001 = .ok .vstr ∧
  decode 0xA000003A = .ok (.vpush 0x3A) ∧ decode 0xB0FFFFF9 = .ok (.vint (-7)) ∧ decode 0xC0000000 = .ok .canr ∧
  decode 0xD0000006 = .ok (.drawv true .center) ∧ decode 0xE0000000 = .ok .transmit ∧
  decode 0x00000000 = .error .reservedOpcode ∧ decode 0xF0000000 = .error .reservedOpcode

/-! ### The step, the bus and the register map (10_state.md, 20_memory.md) -/

/-- R38: on the host's turn, with a `CMD` write at the head of the bus and `BUSY = 0`, a word that decodes to a command
runs exactly that command, with the turn and the access used up. The turns are the model's schedule (log entry 3), and
`withFetchWord`, which sets up such a step, is the model's own (log entry 9). -/
def Obligations.StepRunsDecodedCommand : Prop :=
  (∀ (s : State) (ts : List Turn) (rest : List Access) (w : Word) (i : Instr),
    s.turns = .host :: ts → s.bus = .write .word s.cfg.base w :: rest → s.serState = .idle → decode w = .ok i →
    step s = exec i { s with turns := ts, bus := rest }) ∧
  (∀ (s : State) (w : Nat) (i : Instr),
    s.serState = .idle → decodeTableWord 32 w = some i → step (s.withFetchWord 32 w) = exec i s)

/-- R82, R83, R84, R182: an accepted illegal word writes `E_ILLEGAL` and changes nothing else. -/
def Obligations.IllegalWordOnlySetsErr : Prop :=
  ∀ (s : State) (ts : List Turn) (rest : List Access) (w : Word),
    s.turns = .host :: ts → s.bus = .write .word s.cfg.base w :: rest → s.serState = .idle →
    badOpcode w ∨ badBits w ∨ badField w →
    step s = .next { s with err := .illegal, turns := ts, bus := rest }

/-- R56: a `CMD` write is accepted iff `BUSY = 0`; while `BUSY = 1` the access stays on the bus and nothing else of the
state changes (what becomes of the host's turn is the model's schedule). Of the agents only the slot clock, or reset,
makes a busy block idle. -/
def Obligations.CmdWriteIsHeldWhileBusy : Prop :=
  (∀ (s : State) (ts : List Turn) (rest : List Access) (w : Word),
    s.turns = .host :: ts → s.bus = .write .word s.cfg.base w :: rest → s.serState ≠ .idle →
    ∃ t, step s = .next t ∧ t.bus = s.bus ∧ t = { s with turns := t.turns }) ∧
  (∀ (s : State) (ts : List Turn) (rest : List Access) (w : Word),
    s.turns = .host :: ts → s.bus = .write .word s.cfg.base w :: rest → s.serState = .idle →
    ∃ t, step s = .next t ∧ t.bus = rest) ∧
  (∀ s t : State, step s = .next t → s.serState ≠ .idle → t.serState = .idle →
    mover s = .reset ∨ (mover s = .slot ∧ t = { slotStep s with turns := s.turns.tail }))

/-- R55, R54: a host read changes no state of the block (its word goes to the host), so a second read returns the same
value; a read of `CMD` returns 0; a write to any offset but `CMD`'s is ignored. -/
def Obligations.OnlyCmdWritesHaveSideEffects : Prop :=
  (∀ (s : State) (ts : List Turn) (rest : List Access) (width : Width) (addr off : Nat),
    s.turns = .host :: ts → s.bus = .read width addr :: rest → admitted s.cfg width addr off →
    ∃ t, step s = .next t ∧ t = { s with turns := ts, bus := rest, reads := readReg s off :: s.reads } ∧
      ∀ off', readReg t off' = readReg s off') ∧
  (∀ s : State, readReg s 0x000 = 0) ∧
  (∀ (s : State) (ts : List Turn) (rest : List Access) (width : Width) (addr off : Nat) (v : Word),
    s.turns = .host :: ts → s.bus = .write width addr v :: rest → admitted s.cfg width addr off → off ≠ 0 →
    step s = .next { s with turns := ts, bus := rest })

/-- R51: on the host's turn, the pending access is refused exactly when it is not an aligned 32-bit access inside the
window. -/
def Obligations.UnadmittedAccessIsRefused : Prop :=
  ∀ (s : State) (ts : List Turn) (a : Access) (rest : List Access),
    s.turns = .host :: ts → s.bus = a :: rest →
    ((∃ r, step s = .refused r) ↔ ¬ ∃ off, admitted s.cfg (accessPlace a).1 (accessPlace a).2 off)

/-- R39, with the outcome codes of R181: the fields of `STATUS`; a write to it is ignored. -/
def Obligations.StatusRegisterFields : Prop :=
  readOnlyAt 0x004 ∧
  ∀ s : State,
    (readReg s 0x004).toNat =
      (if s.serState = .idle then 0 else 1) + 2 * (if s.latchCnt = 0 then 0 else 1) + 4 * s.found.toNat +
      8 * s.canr.toNat + 16 * (match s.err with | .none => 0 | .illegal => 1 | .unrenderable => 2 | .textOvf => 3) +
      256 * s.dout.toNat

/-- R40 to R46: `RESULT`, `COLOR`, `CONFIG`, `VALSTAT`, `VINTR`, `SER`, `LATCHCNT` read the fields the rules place, are
read-only, and are read with no side effect; `CONFIG` is the same after every step. -/
def Obligations.RegisterReads : Prop :=
  (∀ off ∈ [0x008, 0x00C, 0x010, 0x014, 0x018, 0x01C, 0x020], readOnlyAt off) ∧
  (∀ s t : State, step s = .next t → readReg t 0x010 = readReg s 0x010) ∧
  ∀ s : State, s.Inv →
    readReg s 0x008 = s.result ∧
    (readReg s 0x00C).toNat = s.color.toNat ∧
    (readReg s 0x010).toNat = s.cfg.width + 2 ^ 12 * s.cfg.height + 2 ^ 24 * s.cfg.fontHeight ∧
    (readReg s 0x014).toNat = (match s.vkind with | .none => 0 | .str => 1 | .int => 2) + 2 ^ 8 * s.tlen ∧
    readReg s 0x018 = s.vint ∧
    (readReg s 0x01C).toNat = (match s.serState with | .idle => 0 | .wait => 1 | .send => 2) + 2 ^ 8 * s.serK ∧
    (readReg s 0x020).toNat = s.latchCnt

/-- R47, R48, R53: the text and framebuffer windows, and 0 at every offset that R37 does not list; a write to any of
them is ignored. -/
def Obligations.WindowReads : Prop :=
  (∀ off, off % 4 = 0 → 0x024 ≤ off → off < 0x10000 → readOnlyAt off) ∧
  ∀ s : State,
    (∀ k, k < 16 → (readReg s (0x100 + 4 * k)).toNat = if k < s.tlen then (s.text.getD k 0).toNat else 0) ∧
    (∀ i, i < 4096 → (readReg s (0x1000 + 4 * i)).toNat = if i < s.cfg.pixels then (s.fb.read i).toNat else 0) ∧
    (∀ off, off % 4 = 0 → 0x024 ≤ off ∧ off < 0x100 ∨ 0x140 ≤ off ∧ off < 0x1000 ∨ 0x5000 ≤ off →
      readReg s off = 0)

/-! ### Reset and the machine's invariant (10_state.md R49, 70_reset_and_hazards.md) -/

/-- R200, R49: a reset step takes every item of the block to its reset value from any state, mid-frame too (R201), and
leaves the configuration and with it the font. -/
def Obligations.ResetStepFromAnyState : Prop :=
  ∀ (s : State) (ts : List Turn), s.turns = .reset :: ts →
    ∃ t, step s = .next t ∧ t.color = 0 ∧ t.result = 0 ∧ t.found = false ∧ t.canr = false ∧ t.err = .none ∧
      t.serState = .idle ∧ t.serK = 0 ∧ t.latchCnt = 80000 ∧ t.dout = false ∧ t.vkind = .none ∧
      (∀ k, t.text.getD k 0 = 0) ∧ t.tlen = 0 ∧ t.vint = 0 ∧ (∀ i, t.fb.read i = 0) ∧ t.cfg = s.cfg

/-- R202: from the reset state of any legal configuration `TRANSMIT` waits for the 80000 slots of the settling interval,
LOW on the wire, and the frame that follows is that of a black framebuffer. -/
def Obligations.TransmitAfterResetWaits : Prop :=
  ∀ c : Config, c.Wf → busy (State.resetOf c) = false ∧ ∃ t, exec .transmit (State.resetOf c) = .next t ∧
    wire (80000 + 240 * c.pixels) t =
      List.replicate 80000 false ++ (List.replicate (24 * c.pixels) (bitPattern false)).flatten

/-- R7, R8, R186: a configuration is refused exactly when it leaves a range of R7 or breaks a constraint of R8, and an
admitted one starts in its reset state, which satisfies the machine's invariant. The fixed phases add up to the ten slots
of a bit. The flag for a pin that can be claimed is the model's (log entry 14). -/
def Obligations.BootRefusesBadConfigurations : Prop :=
  phaseT1 + phaseT2 + phaseT3 = 10 ∧
  ∀ c : Config,
    (State.boot c = .refused .badConfig ∨ (State.boot c = .next (State.resetOf c) ∧ (State.resetOf c).Inv)) ∧
    (State.boot c = .next (State.resetOf c) ↔
      (1 ≤ c.width ∧ c.width ≤ 4095) ∧ (1 ≤ c.height ∧ c.height ≤ 4095) ∧ c.width * c.height ≤ 4096 ∧
      (1 ≤ c.fontHeight ∧ c.fontHeight ≤ 31) ∧ (1 ≤ c.glyphBits ∧ c.glyphBits ≤ 32) ∧
      (∀ ch ∈ supportedCodes, ∃ rows, lookup c ch = some rows ∧ rows.length = c.fontHeight ∧
        ∀ r ∈ rows, r < 2 ^ c.glyphBits) ∧
      c.base % 0x10000 = 0 ∧ c.pinClaimable = true)

/-- The machine's invariant holds at `State.reset`, whose configuration is the model's choice (log entry 2). -/
def Obligations.InvariantAtReset : Prop := State.reset.Inv

/-- Every step keeps the invariant: the configuration stays legal, the framebuffer keeps its canonical form within `N`
entries (R35), the value register stays in range (R33, R34), the latch count stays at most `LATCH_SLOTS` (R29), and the
serializer's fields agree with its state and with the line (R26, R30, R61, R154, R161; the line right after a frame as
log entry 7 reads it). -/
def Obligations.StepKeepsInvariant : Prop :=
  ∀ s t : State, s.Inv → step s = .next t → t.Inv

/-- R20, R36, R110: no step changes the configuration, so neither `N`, `W`, `H` nor the font. -/
def Obligations.ConfigurationNeverChanges : Prop :=
  ∀ s t : State, step s = .next t → t.cfg = s.cfg

/-- R180, R185: the machine never faults, every command completes, and the only stop is the refusal of a host access. -/
def Obligations.OnlyHostAccessesStop : Prop :=
  (∀ (i : Instr) (s : State), ∃ t, exec i s = .next t) ∧
  (∀ s : State, mover s ≠ .host → ∃ t, step s = .next t) ∧
  (∀ (s : State) (r : Refusal), step s = .refused r →
    r = .accessWidth ∨ r = .accessMisaligned ∨ r = .accessOutsideWindow)

/-- R20's table: each item of the block changes only under the commands that the table names as its writers. -/
def Obligations.CommandsWriteOnlyTheirItems : Prop :=
  ∀ (i : Instr) (s t : State), exec i s = .next t →
    (t.color ≠ s.color → writesColor i) ∧ (t.result ≠ s.result → writesResult i) ∧
    (t.found ≠ s.found → writesFound i) ∧ (t.canr ≠ s.canr → writesCanr i) ∧
    (t.serState ≠ s.serState ∨ t.serK ≠ s.serK → writesSerializer i) ∧
    (t.vkind ≠ s.vkind ∨ t.tlen ≠ s.tlen → writesVkindTlen i) ∧ (t.text ≠ s.text → writesText i) ∧
    (t.vint ≠ s.vint → writesVint i) ∧ (t.fb ≠ s.fb → writesFb i) ∧
    t.latchCnt = s.latchCnt ∧ t.dout = s.dout ∧ t.cfg = s.cfg ∧ t.bus = s.bus ∧ t.turns = s.turns ∧
    t.reads = s.reads

/-- R9, R25, R163: the machine's step at the slot clock's turn is the slot step of 44_bitstream_encoder.md with the turn
used up; it changes nothing but the serializer, the latch count and the line. -/
def Obligations.SlotClockFrame : Prop :=
  ∀ s : State, mover s = .slot →
    ∃ t, step s = .next t ∧ t = { slotStep s with turns := s.turns.tail } ∧
      t = { s with serState := t.serState, serK := t.serK, latchCnt := t.latchCnt, dout := t.dout,
                   turns := s.turns.tail }

/-- R61: while `BUSY = 1`, no step but reset changes the framebuffer or any other item that commands write. -/
def Obligations.BusyFreezesTheFramebuffer : Prop :=
  ∀ s t : State, step s = .next t → s.serState ≠ .idle → mover s ≠ .reset →
    t.fb = s.fb ∧ t.color = s.color ∧ t.result = s.result ∧ t.found = s.found ∧ t.canr = s.canr ∧ t.err = s.err ∧
    t.vkind = s.vkind ∧ t.text = s.text ∧ t.tlen = s.tlen ∧ t.vint = s.vint

/-- R181, R187: which command can report which code; a command reports `E_NONE`, `E_UNRENDERABLE` (`DRAWV` alone) or
`E_TEXT_OVF` (`VPUSH` alone), and a legal command never reports `E_ILLEGAL`. -/
def Obligations.OutcomeCodesByCommand : Prop :=
  ∀ (i : Instr) (s t : State), exec i s = .next t →
    t.err ≠ .illegal ∧ (t.err = .unrenderable → ∃ sign align, i = .drawv sign align) ∧
    (t.err = .textOvf → ∃ c, i = .vpush c)

/-! ### Framebuffer (42_framebuffer.md) -/

/-- R105: `SETCOLOR` loads `pack(r, g, b)` into `COLOR`, reports `E_NONE` and changes nothing else. -/
def Obligations.SetcolorLoadsColor : Prop :=
  (∀ w : Word, w &&& 0xFF000000 = 0x10000000 →
    ∃ g r b, decode w = .ok (.setcolor g r b) ∧ packColor g r b = w.extractLsb' 0 24) ∧
  ∀ (g r b : Byte) (s : State), ∃ t, exec (.setcolor g r b) s = .next t ∧
    t.color.toNat = g.toNat * 2 ^ 16 + r.toNat * 2 ^ 8 + b.toNat ∧ t = { s with color := t.color, err := .none }

/-- R100, R101: packing then unpacking yields the triple, and unpacking then packing yields the word. -/
def Obligations.PackUnpackRoundTrip : Prop :=
  (∀ g r b : Byte, (packColor g r b).toNat = g.toNat * 2 ^ 16 + r.toNat * 2 ^ 8 + b.toNat) ∧
  (∀ g r b : Byte, unpackColor (packColor g r b) = (r, g, b)) ∧
  (∀ w : Color, packColor (unpackColor w).2.1 (unpackColor w).1 (unpackColor w).2.2 = w)

/-- R103, R106: `SET` writes `COLOR` to the entry it names when that is in `[0, N)`, drops the write otherwise, reports
`E_NONE` either way and changes nothing else. -/
def Obligations.SetWritesOneEntry : Prop :=
  (∀ w : Word, w &&& 0xFF000000 = 0x20000000 → decode w = .ok (.set (w.extractLsb' 0 24).toInt)) ∧
  ∀ (idx : Int) (s : State), Memory.wf s.cfg.pixels s.fb → ∃ t, exec (.set idx) s = .next t ∧
    (∀ k : Nat, t.fb.read k = if (k : Int) = idx ∧ k < s.cfg.pixels then s.color else s.fb.read k) ∧
    t = { s with fb := t.fb, err := .none }

/-- R104, R107: `SETXY` writes `COLOR` to entry `y * W + x` when that is in `[0, N)`, whatever the coordinates
themselves, and changes nothing else. -/
def Obligations.SetxyWritesLinearIndex : Prop :=
  (∀ w : Word, w &&& 0xFF000000 = 0x30000000 →
    decode w = .ok (.setxy (w.extractLsb' 12 12).toInt (w.extractLsb' 0 12).toInt)) ∧
  ∀ (x y : Int) (s : State), Memory.wf s.cfg.pixels s.fb → ∃ t, exec (.setxy x y) s = .next t ∧
    (∀ k : Nat, t.fb.read k = if (k : Int) = y * s.cfg.width + x ∧ k < s.cfg.pixels then s.color else s.fb.read k) ∧
    t = { s with fb := t.fb, err := .none }

/-- R108: `FILL` makes every entry `COLOR` and changes nothing else but `ERR`. -/
def Obligations.FillWritesEveryEntry : Prop :=
  decode 0x40000000 = .ok .fill ∧
  ∀ s : State, ∃ t, exec .fill s = .next t ∧
    (∀ k : Nat, k < s.cfg.pixels → t.fb.read k = s.color) ∧ Memory.wf s.cfg.pixels t.fb ∧
    t = { s with fb := t.fb, err := .none }

/-- R109: `CLEAR` makes every entry packed black and keeps `COLOR`; it is `SETCOLOR 0,0,0` then `FILL`, except that it
leaves `COLOR` as it was. -/
def Obligations.ClearWritesBlackAndKeepsColor : Prop :=
  decode 0x50000000 = .ok .clear ∧
  ∀ s : State, ∃ t, exec .clear s = .next t ∧ (∀ k : Nat, t.fb.read k = 0) ∧ Memory.wf s.cfg.pixels t.fb ∧
    t = { s with fb := t.fb, err := .none } ∧
    ∃ u v, exec (.setcolor 0 0 0) s = .next u ∧ exec .fill u = .next v ∧ t = { v with color := s.color }

/-! ### Font table (41_font_table.md) -/

/-- R90, R94: the supported characters are the 15 codes of the table; `lookup` finds exactly those, each with the glyph
that stands in its place of the font. -/
def Obligations.LookupFindsSupportedCodes : Prop :=
  ∀ (cfg : Config) (c : Byte), (supported c = true ↔ c ∈ supportedCodes) ∧
    (∀ k : Nat, supportedCodes[k]? = some c → lookup cfg c = cfg.font.toList[k]?) ∧
    (lookup cfg c = none ↔ c ∉ supportedCodes)

/-- R91, R92: in a legal configuration a supported character has `FH` rows below `2^GBITS`, and `gw` is the position of
the highest set bit across them plus 1 (0 when no bit is set), at most `GBITS`. -/
def Obligations.GlyphWidthIsHighestBit : Prop :=
  ∀ (cfg : Config) (c : Byte), cfg.Wf → c ∈ supportedCodes → ∃ rows, lookup cfg c = some rows ∧
    rows.length = cfg.fontHeight ∧ (∀ r ∈ rows, r < 2 ^ cfg.glyphBits) ∧
    (∀ r ∈ rows, r < 2 ^ glyphWidth cfg c) ∧
    (glyphWidth cfg c = 0 ∨ ∃ r ∈ rows, r.testBit (glyphWidth cfg c - 1) = true) ∧
    glyphWidth cfg c ≤ cfg.glyphBits

/-- R95: `GWIDTH` reports the width and `FOUND`, or 0 and not found, and changes nothing else. -/
def Obligations.GwidthReportsWidth : Prop :=
  (∀ w : Word, w &&& 0xFFFFFF00 = 0x70000000 → decode w = .ok (.gwidth (w.extractLsb' 0 8))) ∧
  ∀ (c : Byte) (s : State), s.cfg.Wf → ∃ t, exec (.gwidth c) s = .next t ∧
    (c ∈ supportedCodes → t.found = true ∧ t.result.toNat = glyphWidth s.cfg c) ∧
    (c ∉ supportedCodes → t.found = false ∧ t.result = 0) ∧
    t = { s with found := t.found, result := t.result, err := .none }

/-- R96: `GROW` reports row `row` of the glyph and `FOUND`, or 0 and not found for an unsupported character or a row of
`FH` or more, and changes nothing else. -/
def Obligations.GrowReportsRow : Prop :=
  (∀ w : Word, w &&& 0xFFFF0000 = 0x80000000 →
    decode w = .ok (.grow (w.extractLsb' 8 8) (w.extractLsb' 0 8))) ∧
  ∀ (row c : Byte) (s : State), s.cfg.Wf → ∃ t, exec (.grow row c) s = .next t ∧
    (c ∈ supportedCodes → row.toNat < s.cfg.fontHeight →
      t.found = true ∧ ∃ rows, lookup s.cfg c = some rows ∧ rows[row.toNat]? = some t.result.toNat) ∧
    (c ∉ supportedCodes ∨ s.cfg.fontHeight ≤ row.toNat → t.found = false ∧ t.result = 0) ∧
    t = { s with found := t.found, result := t.result, err := .none }

/-! ### Glyph renderer (43_glyph_renderer.md) -/

/-- R120, R121: `DRAWG` sets `FOUND`, gives `COLOR` to every entry under a lit pixel of a supported glyph at a column
that is not negative, leaves every other entry, and changes nothing else. -/
def Obligations.DrawgPaintsLitPixels : Prop :=
  (∀ w : Word, w &&& 0xFF000000 = 0x60000000 →
    decode w = .ok (.drawg (w.extractLsb' 8 16).toInt (w.extractLsb' 0 8))) ∧
  ∀ (x : Int) (c : Byte) (s : State), Memory.wf s.cfg.pixels s.fb → ∃ t, exec (.drawg x c) s = .next t ∧
    (t.found = true ↔ c ∈ supportedCodes) ∧
    (∀ k : Nat, k < s.cfg.pixels → litAt s.cfg c x k → t.fb.read k = s.color) ∧
    (∀ k : Nat, ¬ (k < s.cfg.pixels ∧ litAt s.cfg c x k) → t.fb.read k = s.fb.read k) ∧
    t = { s with found := t.found, fb := t.fb, err := .none }

/-- R123: `VNONE`. -/
def Obligations.VnoneSetsOtherKind : Prop :=
  decode 0x90000000 = .ok .vnone ∧
  ∀ s : State, ∃ t, exec .vnone s = .next t ∧ t = { s with vkind := .none, tlen := 0, vint := 0, err := .none }

/-- R124: `VSTR`. -/
def Obligations.VstrSetsEmptyString : Prop :=
  decode 0x90000001 = .ok .vstr ∧
  ∀ s : State, ∃ t, exec .vstr s = .next t ∧ t = { s with vkind := .str, tlen := 0, err := .none } ∧
    t.text.toList.take t.tlen = []

/-- R125, R184: `VPUSH` appends to a string that is not full, starts a new string from another kind, and reports
`E_TEXT_OVF` with nothing else changed when the string is full. -/
def Obligations.VpushAppendsOrOverflows : Prop :=
  (∀ w : Word, w &&& 0xFFFFFF00 = 0xA0000000 → decode w = .ok (.vpush (w.extractLsb' 0 8))) ∧
  ∀ (c : Byte) (s : State), s.valueOk → ∃ t, exec (.vpush c) s = .next t ∧
    (s.vkind ≠ .str → t = { s with vkind := .str, tlen := 1, text := t.text, err := .none } ∧
      t.text.toList = c :: s.text.toList.drop 1) ∧
    (s.vkind = .str → s.tlen < 16 → t = { s with tlen := s.tlen + 1, text := t.text, err := .none } ∧
      t.text.toList = s.text.toList.take s.tlen ++ [c] ++ s.text.toList.drop (s.tlen + 1)) ∧
    (s.vkind = .str → s.tlen = 16 → t = { s with err := .textOvf })

/-- R126: `VINT` loads the sign-extended immediate. -/
def Obligations.VintLoadsImmediate : Prop :=
  (∀ w : Word, w &&& 0xFF000000 = 0xB0000000 → decode w = .ok (.vint (w.extractLsb' 0 24).toInt)) ∧
  ∀ (imm : Int) (s : State), (Instr.vint imm).WellFormed → ∃ t, exec (.vint imm) s = .next t ∧ t.vint.toInt = imm ∧
    t = { s with vkind := .int, tlen := 0, vint := t.vint, err := .none }

/-- R128, R129: `CANR` sets the flag to `can_render` of the value register and changes nothing else. -/
def Obligations.CanrComputesCanRender : Prop :=
  decode 0xC0000000 = .ok .canr ∧
  ∀ s : State, ∃ t, exec .canr s = .next t ∧ (t.canr = true ↔ renderable s) ∧
    t = { s with canr := t.canr, err := .none }

/-- R127: the string of an integer value is its decimal digits, canonical, after `-` for a negative value and after `+`
for a non-negative one when `sign = 1`; a string value is its characters, whatever `sign` is. -/
def Obligations.ValueStringIsDecimal : Prop :=
  ∀ (s : State) (sign : Bool),
    (s.vkind = .str → strOf s sign = s.text.toList.take s.tlen) ∧
    (s.vkind = .int → ∃ ds, canonicalDigits ds ∧ digitsNumber ds = s.vint.toInt.natAbs ∧
      strOf s sign = (if s.vint.toInt < 0 then [0x2D] else if sign then [0x2B] else []) ++ ds)

/-- R131: the start column of each alignment, the ceiling taken in the rationals, 0 for all three when `tw = W`, and
under `CENTER` one more blank column on the left than on the right when `W - tw` is odd. -/
def Obligations.StartColumnByAlignment : Prop :=
  ∀ (cfg : Config) (align : Align) (tw : Int),
    startX cfg align tw = startColumn cfg.width align tw ∧ (tw = cfg.width → startX cfg align tw = 0) ∧
    (align = .center → tw ≤ cfg.width → (cfg.width - tw) % 2 = 1 →
      startX cfg align tw = (cfg.width - tw - startX cfg align tw) + 1)

/-- R183: `DRAWV` reports `E_UNRENDERABLE` exactly when the value cannot be rendered; it then writes `CANR <- 0`, paints
nothing and changes nothing else. -/
def Obligations.DrawvRejectsUnrenderable : Prop :=
  ∀ (sign : Bool) (align : Align) (s : State), ∃ t, exec (.drawv sign align) s = .next t ∧
    (t.err = .unrenderable ↔ ¬ renderable s) ∧
    (¬ renderable s → t = { s with canr := false, err := .unrenderable })

/-- R130, R131, R132, R133: `DRAWV` of a value that cannot be rendered only reports so. Of a renderable value it paints
the string of the value, each glyph at its running column from the start column of the alignment: it gives `COLOR` to
exactly the entries under a lit pixel, sets `CANR`, reports `E_NONE` and changes nothing else. For the empty string no
entry changes. -/
def Obligations.DrawvPaintsTheString : Prop :=
  (∀ w : Word, w &&& 0xFFFFFFF8 = 0xD0000000 →
    (low2 w = 0 → decode w = .ok (.drawv (w.getLsbD 2) .left)) ∧
    (low2 w = 1 → decode w = .ok (.drawv (w.getLsbD 2) .right)) ∧
    (low2 w = 2 → decode w = .ok (.drawv (w.getLsbD 2) .center))) ∧
  ∀ (sign : Bool) (align : Align) (s : State), Memory.wf s.cfg.pixels s.fb →
    ∃ t, exec (.drawv sign align) s = .next t ∧
      (¬ renderable s → t = { s with canr := false, err := .unrenderable }) ∧
      (renderable s → t = { s with canr := true, fb := t.fb, err := .none } ∧
        ∀ str x0, str = strOf s sign →
          x0 = startColumn s.cfg.width align
            ((str.map (fun c => (glyphWidth s.cfg c : Int))).sum + ((str.length : Int) - 1)) →
          (∀ k : Nat, k < s.cfg.pixels → litInString s.cfg str x0 k → t.fb.read k = s.color) ∧
          (∀ k : Nat, ¬ (k < s.cfg.pixels ∧ litInString s.cfg str x0 k) → t.fb.read k = s.fb.read k))

/-- R136: the drawing commands only set pixels to `COLOR`: every other entry is as before, and the frame keeps its
canonical form. -/
def Obligations.DrawingOnlyAddsPixels : Prop :=
  ∀ (i : Instr) (s t : State), (∃ x c, i = .drawg x c) ∨ (∃ sign align, i = .drawv sign align) →
    Memory.wf s.cfg.pixels s.fb → exec i s = .next t →
    Memory.wf s.cfg.pixels t.fb ∧ ∀ k : Nat, t.fb.read k = s.fb.read k ∨ t.fb.read k = s.color

/-- R134: a string that starts left of the matrix loses every glyph whose own column is negative, whole, and keeps every
other glyph: an entry changes only under a lit pixel of a glyph at a column that is not negative, and every such entry
takes the colour. -/
def Obligations.LeftOverflowSkipsWholeGlyphs : Prop :=
  ∀ (cfg : Config) (v : Color) (str : List Byte) (x0 : Int) (m : Memory) (k : Nat), Memory.wf cfg.pixels m →
    ((paintString cfg v str x0 m).read k ≠ m.read k →
      ∃ i c, str[i]? = some c ∧ 0 ≤ columnOf cfg str x0 i ∧ litAt cfg c (columnOf cfg str x0 i) k) ∧
    (∀ i c, str[i]? = some c → 0 ≤ columnOf cfg str x0 i → k < cfg.pixels → litAt cfg c (columnOf cfg str x0 i) k →
      (paintString cfg v str x0 m).read k = v)

/-- R33: the text buffer's entries at and past `TLEN` are never read by a command: two states that differ only there
are led to states that differ only past the new `TLEN`. -/
def Obligations.StaleTextIsNeverRead : Prop :=
  ∀ (i : Instr) (s t : State) (v : Vector Byte textMax), s.valueOk →
    v.toList.take s.tlen = s.text.toList.take s.tlen → exec i s = .next t →
    ∃ u, exec i { s with text := v } = .next u ∧ u = { t with text := u.text } ∧
      u.text.toList.take t.tlen = t.text.toList.take t.tlen

/-! ### Bit-stream encoder (44_bitstream_encoder.md) -/

/-- R156: `TRANSMIT` puts the serializer in `WAIT`, so `BUSY` becomes 1, and changes nothing else. -/
def Obligations.TransmitStartsWaiting : Prop :=
  decode 0xE0000000 = .ok .transmit ∧
  ∀ s : State, ∃ t, exec .transmit s = .next t ∧ busy t = true ∧
    t = { s with serState := .wait, serK := 0, err := .none }

/-- R157, R158, R159: what one slot-clock step does in each state of the serializer. -/
def Obligations.SlotStepByState : Prop :=
  ∀ s : State,
    (s.serState = .idle → slotStep s = { s with dout := false, latchCnt := s.latchCnt - 1 }) ∧
    (s.serState = .wait → 0 < s.latchCnt → slotStep s = { s with dout := false, latchCnt := s.latchCnt - 1 }) ∧
    (s.serState = .wait → s.latchCnt = 0 → slotStep s = slotStep { s with serState := .send, serK := 0 }) ∧
    (s.serState = .send → s.serK + 1 = 240 * (s.cfg.width * s.cfg.height) →
      slotStep s = { s with dout := frameLevel s.fb s.serK, serState := .idle, serK := 0, latchCnt := 80000 }) ∧
    (s.serState = .send → s.serK + 1 ≠ 240 * (s.cfg.width * s.cfg.height) →
      slotStep s = { s with dout := frameLevel s.fb s.serK, serK := s.serK + 1 })

/-- R151 to R155, R158, R160, R59, R167: from `WAIT` the wire is LOW for the settling slots that are left, and then the
next `240 * N` slot steps put the whole framebuffer on it, index 0 first and bit 23 first, ten slots a bit. The block is
busy before the last of these steps; after it the block is idle, the settling interval is loaded and the framebuffer is
as before. That `DOUT` still is the last bit's level in that idle state is the model's reading (log entry 7). -/
def Obligations.FrameOnTheWire : Prop :=
  ∀ s : State, s.cfg.Wf → s.serState = .wait →
    wire (s.latchCnt + 240 * s.cfg.pixels) s =
      List.replicate s.latchCnt false ++ framePattern s.cfg.pixels s.fb ∧
    (∀ m, m < s.latchCnt + 240 * s.cfg.pixels → busy (slotSteps m s) = true) ∧
    slotSteps (s.latchCnt + 240 * s.cfg.pixels) s =
      { s with serState := .idle, serK := 0, latchCnt := 80000,
               dout := (s.fb.read (s.cfg.pixels - 1)).getLsbD 0 }

/-- R56, R60, R61, R214: the same frame with steps of the host between its slots. In any run from `WAIT` in which no reset
is listed, the slot-clock steps put the settling slots that are left and then the framebuffer as it was on the wire, slot
after slot, and the block is busy until the last of them. -/
def Obligations.FrameAmongHostSteps : Prop :=
  ∀ (n : Nat) (s t : State), s.cfg.Wf → s.serState = .wait → .reset ∉ s.turns →
    Host.Core.run Sys2Proof.core n s = .next t →
    (runWire n s).length ≤ s.latchCnt + 240 * s.cfg.pixels →
    runWire n s = (List.replicate s.latchCnt false ++ framePattern s.cfg.pixels s.fb).take (runWire n s).length ∧
    ((runWire n s).length < s.latchCnt + 240 * s.cfg.pixels → busy t = true)

/-- R166: the frame of an all-black framebuffer is the pattern of a logical 0, `24 * N` times. -/
def Obligations.AllBlackFrame : Prop :=
  ∀ s : State, s.cfg.Wf → s.serState = .wait → s.latchCnt = 0 → (∀ i, i < s.cfg.pixels → s.fb.read i = 0) →
    wire (240 * s.cfg.pixels) s =
      (List.replicate (24 * s.cfg.pixels) [false, false, false, true, true, false, false, false, false, false]).flatten

/-- R206, R214: from every state that meets the invariant, slot steps alone end a wait or a frame within
`LATCH_SLOTS + 240 * N` of them. -/
def Obligations.EveryHoldIsLifted : Prop :=
  ∀ s : State, s.Inv → s.serState ≠ .idle →
    ∃ n, n ≤ 80000 + 240 * s.cfg.pixels ∧ (slotSteps n s).serState = .idle

/-- R214: with only admitted accesses pending, the run ends, whatever turns are listed: after some number of steps, and
not before, every access has been taken and the serializer is idle. That after the last listed turn no agent is starved is
the model's own schedule (log entry 3). -/
def Obligations.EveryRunEnds : Prop :=
  ∀ s : State, s.Inv →
    (∀ a ∈ s.bus, ∃ off, admitted s.cfg (accessPlace a).1 (accessPlace a).2 off) →
    ∃ n t, runEnds n s t ∧ t.Inv

/-- R214: the run of a sequence of command words from an idle block, with no turn listed (the model's own schedule, log
entry 3): every word is accepted in order, every `TRANSMIT` sends its whole frame, and the run's wire output is, for each
of them, the settling slots that are left and the frame. The final `DOUT` is as log entry 7 reads it. -/
def Obligations.RunOfCommandSequence : Prop :=
  ∀ (s : State) (ws : List Word), s.Inv → s.serState = .idle → s.turns = [] → s.bus = [] →
    ∃ n t, runEnds n (s.submit ws) t ∧ t = (runOf s ws).1 ∧ runWire n (s.submit ws) = (runOf s ws).2

/-- R158, R160, R161: a frame starts only when no settling slot is left, and in each settling slot the line is LOW. -/
def Obligations.SettlingIntervalIsKept : Prop :=
  ∀ s t : State, step s = .next t → s.serState ≠ .send →
    (t.serState = .send → s.latchCnt = 0 ∧ s.serState = .wait) ∧
    (mover s = .slot → 0 < s.latchCnt → t.dout = false ∧ t.latchCnt = s.latchCnt - 1)

/-- R161: the latch count falls by 1 on each idle or waiting slot step in which it is not 0, is loaded with 80000 at the
end of a frame and at reset, is changed by nothing else, and is 0 throughout `SEND`. -/
def Obligations.LatchTimerChanges : Prop :=
  ∀ s t : State, s.Inv → step s = .next t →
    (mover s = .slot → s.serState ≠ .send → 0 < s.latchCnt → t.latchCnt = s.latchCnt - 1) ∧
    (mover s = .slot → s.serState ≠ .idle → t.serState = .idle → t.latchCnt = 80000) ∧
    (mover s = .slot → s.serState = .send → s.serK + 1 = 240 * s.cfg.pixels → t.latchCnt = 80000) ∧
    (mover s = .reset → t.latchCnt = 80000) ∧
    (s.serState = .send → s.latchCnt = 0) ∧
    (t.latchCnt ≠ s.latchCnt →
      (mover s = .slot ∧ s.serState ≠ .send ∧ 0 < s.latchCnt ∧ t.latchCnt = s.latchCnt - 1) ∨
      (mover s = .slot ∧ t.serState = .idle ∧ s.serState ≠ .idle ∧ t.latchCnt = 80000) ∨
      (mover s = .reset ∧ t.latchCnt = 80000))

/-! ### Pseudo-instructions (30_encoding.md R88) -/

/-- R88: `pset`, `pxy`, `fillc`, `glyph`, `drawt` and `drawi` expand to the commands of the table, and `text` refuses a
string longer than 16 characters; every expansion of in-range operands is well-formed. -/
def Obligations.PseudoInstructionsExpand : Prop :=
  (∀ (p : Pseudo) (is : List Instr), pseudoInRange p → p.expand = some is → ∀ i ∈ is, i.WellFormed) ∧
  ∀ (v x y : Int) (r g b c : Byte) (str : List Byte) (align : Option Align) (sign : Option Bool),
    (Pseudo.pset v r g b).expand = some [.setcolor g r b, .set v] ∧
    (Pseudo.pxy x y r g b).expand = some [.setcolor g r b, .setxy x y] ∧
    (Pseudo.fillc r g b).expand = some [.setcolor g r b, .fill] ∧
    (Pseudo.glyph c x r g b).expand = some [.setcolor g r b, .drawg x c] ∧
    ((Pseudo.text str).expand = if str.length ≤ 16 then some (.vstr :: str.map .vpush) else none) ∧
    ((Pseudo.drawt str r g b align).expand = if str.length ≤ 16 then
      some (.vstr :: str.map .vpush ++ [.setcolor g r b, .drawv false (align.getD .center)]) else none) ∧
    (Pseudo.drawi v r g b align sign).expand =
      some [.vint v, .setcolor g r b, .drawv (sign.getD false) (align.getD .center)]

/-- R87, R89: what becomes of a line whose tokens name the commands `is`. If an operand of one of them is out of its range
the line is refused; otherwise its words are exactly their encodings, in order, and decode to them. No other line
assembles. The lexical details are the model's (log entry 16). -/
def Obligations.AssembledWordsAreCommands : Prop :=
  (∀ (line mn : List Char) (rest ops : List Token) (is : List Instr),
    lexLine line (.plain []) = some (.word mn :: rest) → operandList rest = some ops → assembleParts mn ops = some is →
    ((∃ i ∈ is, ¬ i.WellFormed) → assembleLine line = none) ∧
    ((∀ i ∈ is, i.WellFormed) → assembleLine line = some (is.map encode) ∧ ∀ i ∈ is, decode (encode i) = .ok i)) ∧
  (∀ (line : List Char) (ws : List Word), assembleLine line = some ws → ∃ mn rest ops is,
    lexLine line (.plain []) = some (.word mn :: rest) ∧ operandList rest = some ops ∧ assembleParts mn ops = some is ∧
    (∀ i ∈ is, i.WellFormed) ∧ ws = is.map encode)

/-- R87: the text of each command, with its operands in the table's order, assembles to the command's own encoding when
every operand is in its range and is refused otherwise, never truncated. The channels of `setcolor` stand in the text in
the order red, green, blue; an omitted `align` is `center` and an omitted `sign` is 0. The space after the mnemonic and
after each comma is the model's form (log entry 16). -/
def Obligations.AssemblerFollowsSyntax : Prop :=
  ∀ (a b d ch : List Char) (u v w c : Int), isIntText a u → isIntText b v → isIntText d w → isCharText ch c →
    (assembleLine (lineText "setcolor" [a, b, d]) =
      if byteRange u ∧ byteRange v ∧ byteRange w then
        some [encode (.setcolor (BitVec.ofInt 8 v) (BitVec.ofInt 8 u) (BitVec.ofInt 8 w))] else none) ∧
    (assembleLine (lineText "set" [a]) = if -8388608 ≤ u ∧ u ≤ 8388607 then some [encode (.set u)] else none) ∧
    (assembleLine (lineText "setxy" [a, b]) =
      if (-2048 ≤ u ∧ u ≤ 2047) ∧ -2048 ≤ v ∧ v ≤ 2047 then some [encode (.setxy u v)] else none) ∧
    assembleLine (lineText "fill" []) = some [encode .fill] ∧
    assembleLine (lineText "clear" []) = some [encode .clear] ∧
    (assembleLine (lineText "drawg" [ch, a]) =
      if byteRange c ∧ -32768 ≤ u ∧ u ≤ 32767 then some [encode (.drawg u (BitVec.ofInt 8 c))] else none) ∧
    (assembleLine (lineText "gwidth" [ch]) =
      if byteRange c then some [encode (.gwidth (BitVec.ofInt 8 c))] else none) ∧
    (assembleLine (lineText "grow" [ch, a]) =
      if byteRange c ∧ byteRange u then some [encode (.grow (BitVec.ofInt 8 u) (BitVec.ofInt 8 c))] else none) ∧
    assembleLine (lineText "vnone" []) = some [encode .vnone] ∧
    assembleLine (lineText "vstr" []) = some [encode .vstr] ∧
    (assembleLine (lineText "vpush" [ch]) =
      if byteRange c then some [encode (.vpush (BitVec.ofInt 8 c))] else none) ∧
    (assembleLine (lineText "vint" [a]) = if -8388608 ≤ u ∧ u ≤ 8388607 then some [encode (.vint u)] else none) ∧
    assembleLine (lineText "canr" []) = some [encode .canr] ∧
    (∀ align : Align, assembleLine (lineText "drawv" [alignText align, a]) =
      if u = 0 then some [encode (.drawv false align)] else if u = 1 then some [encode (.drawv true align)] else none) ∧
    (∀ align : Align, assembleLine (lineText "drawv" [alignText align]) = some [encode (.drawv false align)]) ∧
    assembleLine (lineText "drawv" []) = some [encode (.drawv false .center)] ∧
    assembleLine (lineText "transmit" []) = some [encode .transmit]
end

