-- ==== Sys2Proof/Laws/Encoding.lean ====
section
/-! SUPPORT. Fields of a word as arithmetic, and fields under a mask: what proofs about decoding and encoding use in place
of bit-by-bit reasoning. -/

namespace Sys2Proof

/-- Concatenation (`::` of R10) as arithmetic. -/
theorem toNat_concat {m n : Nat} (x : BitVec m) (y : BitVec n) :
    (x ++ y).toNat = x.toNat * 2 ^ n + y.toNat := by
  rw [BitVec.toNat_append, Nat.shiftLeft_eq, Nat.mul_comm, Nat.two_pow_add_eq_or_of_lt y.isLt]

/-- A field as arithmetic. -/
theorem wordField_toNat (w : Word) (lo len : Nat) :
    (wordField w lo len).toNat = w.toNat / 2 ^ lo % 2 ^ len := by
  simp [wordField, Nat.shiftRight_eq_div_pow]

/-- The opcode as arithmetic. -/
theorem opcodeOf_eq (w : Word) : opcodeOf w = w.toNat / 2 ^ 28 := by
  have := w.isLt
  rw [opcodeOf, wordField_toNat, Nat.mod_eq_of_lt (by omega)]

/-- A field of a masked word. -/
theorem wordField_and (w m : Word) (lo len : Nat) :
    wordField (w &&& m) lo len = wordField w lo len &&& wordField m lo len := by
  unfold wordField
  exact BitVec.extractLsb'_and ..

/-- A field that the mask keeps whole is the match's field. -/
theorem wordField_of_masked {w m v : Word} (h : w &&& m = v) (lo len : Nat)
    (hm : wordField m lo len = BitVec.allOnes len) : wordField w lo len = wordField v lo len := by
  rw [← h, wordField_and, hm, BitVec.and_allOnes]

/-- The mask of a field. -/
def fieldMask (lo len : Nat) : Word := (BitVec.allOnes len).setWidth 32 <<< lo

/-- A word has no bit under a field's mask exactly when the field is 0. -/
theorem and_fieldMask_eq_zero {w : Word} {lo len : Nat} (h : lo + len ≤ 32) :
    w &&& fieldMask lo len = 0#32 ↔ wordField w lo len = 0#len := by
  constructor
  · intro h0
    refine BitVec.eq_of_getLsbD_eq fun i hi => ?_
    have := congrArg (fun v : Word => v.getLsbD (lo + i)) h0
    simp only [fieldMask, BitVec.getLsbD_and, BitVec.getLsbD_shiftLeft, BitVec.getLsbD_setWidth,
      BitVec.getLsbD_allOnes, BitVec.getLsbD_zero, wordField, BitVec.getLsbD_extractLsb'] at this ⊢
    have h32 : lo + i < 32 := by omega
    have hlo : ¬ lo + i < lo := by omega
    have hi' : lo + i - lo = i := by omega
    have hi32 : i < 32 := by omega
    simpa [h32, hlo, hi', hi32, hi] using this
  · intro h0
    refine BitVec.eq_of_getLsbD_eq fun i hi => ?_
    by_cases hb : lo ≤ i ∧ i < lo + len
    · have := congrArg (fun v : BitVec len => v.getLsbD (i - lo)) h0
      simp only [wordField, BitVec.getLsbD_extractLsb', BitVec.getLsbD_zero] at this
      rw [show lo + (i - lo) = i by omega, decide_eq_true (by omega : i - lo < len), Bool.true_and] at this
      simp [this]
    · simp only [fieldMask, BitVec.getLsbD_and, BitVec.getLsbD_shiftLeft, BitVec.getLsbD_setWidth,
        BitVec.getLsbD_allOnes, BitVec.getLsbD_zero]
      simp; omega

end Sys2Proof
end

