-- ==== Sys2Proof/Laws/Memory.lean ====
section
/-! SUPPORT. What the framebuffer operations do: a read after a write, the canonical form under every operation, and
that two canonical framebuffers with the same entries are equal. -/

namespace Sys2Proof.Machine

/-- An index that is not listed reads 0. -/
theorem Memory.read_of_not_listed {m : Memory} {i : Nat} (h : ∀ e ∈ m, e.1 ≠ i) : m.read i = 0#24 := by
  induction m with
  | nil => rfl
  | cons e rest ih =>
    obtain ⟨k, x⟩ := e
    simp only [Memory.read, List.forall_mem_cons] at h ⊢
    rw [if_neg h.1, ih h.2]

/-- A listed entry of a framebuffer with rising indices is what its index reads. -/
theorem Memory.read_of_mem {m : Memory} (hm : m.Pairwise (fun a b => a.1 < b.1)) {i : Nat} {v : Color}
    (h : (i, v) ∈ m) : m.read i = v := by
  induction m with
  | nil => cases h
  | cons e rest ih =>
    obtain ⟨k, x⟩ := e
    rw [List.pairwise_cons] at hm
    rcases List.mem_cons.1 h with h | h
    · cases h; simp [Memory.read]
    · have : k < i := hm.1 _ h
      simp only [Memory.read]; rw [if_neg (by omega), ih hm.2 h]

/-- Which entries a write leaves: the written one, unless it is 0, and the others. -/
theorem Memory.mem_write {m : Memory} {i : Nat} {v : Color} {e : Nat × Color} (h : e ∈ m.write i v) :
    (e = (i, v) ∧ v ≠ 0#24) ∨ e ∈ m := by
  induction m with
  | nil => by_cases hv : v = 0#24 <;> simp_all [Memory.write]
  | cons a rest ih =>
    obtain ⟨k, x⟩ := a
    simp only [Memory.write] at h
    split at h
    · split at h <;> simp_all
    · split at h
      · split at h
        · simp [h]
        · rcases List.mem_cons.1 h with h | h
          · exact .inl ⟨by simp_all, ‹_›⟩
          · simp [h]
      · rcases List.mem_cons.1 h with h | h
        · simp [h]
        · rcases ih h with h | h
          · exact .inl h
          · simp [h]

/-- A write keeps the indices rising. -/
theorem Memory.pairwise_write {m : Memory} (i : Nat) (v : Color) (hm : m.Pairwise (fun a b => a.1 < b.1)) :
    (m.write i v).Pairwise (fun a b => a.1 < b.1) := by
  induction m with
  | nil => by_cases hv : v = 0#24 <;> simp [Memory.write, hv]
  | cons a rest ih =>
    obtain ⟨k, x⟩ := a
    have hc := List.pairwise_cons.1 hm
    simp only [Memory.write]
    split
    · split
      · exact hm
      · refine List.pairwise_cons.2 ⟨?_, hm⟩
        intro e he
        rcases List.mem_cons.1 he with rfl | he
        · assumption
        · exact Nat.lt_trans ‹i < k› (hc.1 e he)
    · split
      · split
        · exact hc.2
        · subst_vars; exact List.pairwise_cons.2 ⟨hc.1, hc.2⟩
      · refine List.pairwise_cons.2 ⟨?_, ih hc.2⟩
        intro e he
        rcases Memory.mem_write he with ⟨rfl, _⟩ | he
        · change k < i; omega
        · exact hc.1 e he

/-- Reading after a write gives the value written at that index and the old value everywhere else. -/
theorem Memory.read_write {m : Memory} (hm : m.Pairwise (fun a b => a.1 < b.1)) (i : Nat) (v : Color) (k : Nat) :
    (m.write i v).read k = if k = i then v else m.read k := by
  induction m with
  | nil =>
    have hki : (i = k) = (k = i) := propext eq_comm
    by_cases hv : v = 0#24 <;> simp [Memory.write, Memory.read, hv, hki]
  | cons a rest ih =>
    obtain ⟨j, x⟩ := a
    have hc := List.pairwise_cons.1 hm
    have absent : ∀ n, n ≤ j → Memory.read rest n = 0#24 := fun n hn =>
      Memory.read_of_not_listed fun e he => by have := hc.1 e he; simp only at this; omega
    simp only [Memory.write]
    by_cases h1 : i < j
    · rw [if_pos h1]
      by_cases hv : v = 0#24
      · rw [if_pos hv]
        by_cases hk : k = i
        · subst hk; simp only [Memory.read]
          rw [if_neg (by omega), absent k (by omega), hv]; simp
        · simp [hk]
      · have hki : (i = k) = (k = i) := propext eq_comm
        simp only [if_neg hv, Memory.read, hki]
    · rw [if_neg h1]
      by_cases h2 : i = j
      · subst h2
        rw [if_pos rfl]
        by_cases hv : v = 0#24
        · rw [if_pos hv]; simp only [Memory.read]
          by_cases hk : k = i
          · subst hk; rw [absent k le_rfl, hv]; simp
          · rw [if_neg hk, if_neg (fun h => hk h.symm)]
        · rw [if_neg hv]; simp only [Memory.read]
          by_cases hk : i = k
          · rw [if_pos hk, if_pos hk.symm]
          · rw [if_neg hk, if_neg hk, if_neg fun h => hk h.symm]
      · rw [if_neg h2]; simp only [Memory.read, ih hc.2]
        by_cases hk : j = k
        · rw [if_pos hk, if_pos hk, if_neg (by omega)]
        · rw [if_neg hk, if_neg hk]

/-- A write below `n` keeps the canonical form. -/
theorem Memory.wf_write {n : Nat} {m : Memory} (hm : Memory.wf n m) {i : Nat} (hi : i < n) (v : Color) :
    Memory.wf n (m.write i v) := by
  refine ⟨Memory.pairwise_write i v hm.1, fun e he => ?_⟩
  rcases Memory.mem_write he with ⟨rfl, hv⟩ | he
  · exact ⟨hi, hv⟩
  · exact hm.2 e he

/-- An index at or above `n` reads 0 in a canonical framebuffer of `n` entries. -/
theorem Memory.read_of_le {n : Nat} {m : Memory} (hm : Memory.wf n m) {k : Nat} (hk : n ≤ k) : m.read k = 0#24 :=
  Memory.read_of_not_listed fun e he => by have := (hm.2 e he).1; omega

/-- The empty list is canonical. -/
theorem Memory.wf_nil (n : Nat) : Memory.wf n [] := ⟨List.Pairwise.nil, by simp⟩

/-- A filled framebuffer is canonical. -/
theorem Memory.wf_filled (n : Nat) (v : Color) : Memory.wf n (Memory.filled n v) := by
  unfold Memory.filled
  split
  · exact Memory.wf_nil n
  · refine ⟨List.pairwise_map.2 List.pairwise_lt_range, ?_⟩
    simp_all

/-- What a filled framebuffer reads. -/
theorem Memory.read_filled (n : Nat) (v : Color) (k : Nat) :
    (Memory.filled n v).read k = if k < n then v else 0#24 := by
  by_cases hk : k < n
  · rw [if_pos hk]
    by_cases hv : v = 0#24
    · simp [Memory.filled, hv, Memory.read]
    · refine Memory.read_of_mem (Memory.wf_filled n v).1 ?_
      simp [Memory.filled, hv, hk]
  · rw [if_neg hk, Memory.read_of_le (Memory.wf_filled n v) (by omega)]

/-- `fbset` writes the one entry it names when that is in range, and nothing otherwise (R103). -/
theorem read_fbset {n : Nat} {m : Memory} (hm : Memory.wf n m) (i : Int) (v : Color) (k : Nat) :
    (fbset n i v m).read k = if (k : Int) = i ∧ k < n then v else m.read k := by
  unfold fbset
  split
  · rw [Memory.read_write hm.1]
    by_cases hk : k = i.toNat
    · rw [if_pos hk, if_pos (by omega)]
    · rw [if_neg hk, if_neg (by omega)]
  · rw [if_neg (by omega)]

/-- `fbset` keeps the canonical form. -/
theorem wf_fbset {n : Nat} {m : Memory} (hm : Memory.wf n m) (i : Int) (v : Color) :
    Memory.wf n (fbset n i v m) := by
  unfold fbset
  split
  · exact Memory.wf_write hm (by omega) v
  · exact hm

/-- The listed entries of a canonical framebuffer are its entries that do not hold 0. -/
theorem Memory.mem_iff_read {n : Nat} {m : Memory} (hm : Memory.wf n m) (e : Nat × Color) :
    e ∈ m ↔ e.2 ≠ 0#24 ∧ m.read e.1 = e.2 := by
  refine ⟨fun h => ⟨(hm.2 e h).2, Memory.read_of_mem hm.1 h⟩, fun ⟨h0, hr⟩ => ?_⟩
  by_contra hn
  have absent : ∀ f ∈ m, f.1 ≠ e.1 := fun f hf hfe => by
    have hfv := Memory.read_of_mem hm.1 (i := f.1) (v := f.2) hf
    rw [hfe, hr] at hfv
    exact hn ((Prod.ext hfe hfv.symm : f = e) ▸ hf)
  exact h0 (hr.symm.trans (Memory.read_of_not_listed absent))

/-- Two canonical framebuffers whose entries read the same are the same list. -/
theorem Memory.ext {n : Nat} {a b : Memory} (ha : Memory.wf n a) (hb : Memory.wf n b)
    (h : ∀ k, a.read k = b.read k) : a = b := by
  have mem : ∀ e, e ∈ a ↔ e ∈ b := fun e => by
    rw [Memory.mem_iff_read ha, Memory.mem_iff_read hb, h]
  have asymm : ∀ (p q : Nat × Color), p.1 < q.1 → q.1 < p.1 → p = q := fun _ _ h1 h2 => by omega
  have nodup : ∀ {m : Memory}, Memory.wf n m → m.Nodup := fun hm =>
    hm.1.imp fun hlt he => by rw [he] at hlt; exact Nat.lt_irrefl _ hlt
  exact ((List.perm_ext_iff_of_nodup (nodup ha) (nodup hb)).2 mem).eq_of_pairwise
    (fun p q _ _ => asymm p q) ha.1 hb.1

end Sys2Proof.Machine
end

