-- ==== Sys2Proof/Laws/Operands.lean ====
section
/-! SUPPORT. What the operand forms give: which characters have a glyph, and the width of a list of rows. -/

namespace Sys2Proof.Machine

/-- `lookup` finds a glyph exactly for a supported character. -/
theorem lookup_isSome (cfg : Config) (c : Byte) : (lookup cfg c).isSome = supported c := by
  simp [lookup, supported]

/-- A glyph that `lookup` finds is one of the font's. -/
theorem lookup_mem {cfg : Config} {c : Byte} {rows : List Nat} (h : lookup cfg c = some rows) :
    rows ∈ cfg.font.toList := by
  simp only [lookup, Option.map_eq_some_iff] at h
  obtain ⟨k, _, rfl⟩ := h
  simp

/-- A character without a glyph has no width. -/
theorem glyphWidth_of_lookup {cfg : Config} {c : Byte} {rows : List Nat} (h : lookup cfg c = some rows) :
    glyphWidth cfg c = rowsWidth rows := by
  simp [glyphWidth, h]

/-- `bitlen` bounds a number by a power of two, exactly (R11). -/
theorem bitlen_le_iff (m n : Nat) : bitlen m ≤ n ↔ m < 2 ^ n := by
  unfold bitlen
  split
  · simp_all
  · rw [Nat.succ_le_iff, Nat.log2_lt ‹_›]

/-- Every row is at most as wide as the glyph. -/
theorem bitlen_le_rowsWidth {rows : List Nat} {r : Nat} (h : r ∈ rows) : bitlen r ≤ rowsWidth rows := by
  induction rows with
  | nil => cases h
  | cons a rest ih =>
    simp only [rowsWidth, List.map_cons, List.foldr_cons] at *
    rcases List.mem_cons.1 h with rfl | h
    · exact Nat.le_max_left ..
    · exact Nat.le_trans (ih h) (Nat.le_max_right ..)

/-- The glyph is as wide as one of its rows, or has none. -/
theorem rowsWidth_attained (rows : List Nat) : rowsWidth rows = 0 ∨ ∃ r ∈ rows, bitlen r = rowsWidth rows := by
  induction rows with
  | nil => exact .inl rfl
  | cons a rest ih =>
    have e : rowsWidth (a :: rest) = max (bitlen a) (rowsWidth rest) := rfl
    rcases Nat.le_total (bitlen a) (rowsWidth rest) with h | h
    · rw [e, Nat.max_eq_right h]
      exact ih.imp_right fun ⟨r, hr, hb⟩ => ⟨r, List.mem_cons_of_mem _ hr, hb⟩
    · rw [e, Nat.max_eq_left h]
      exact .inr ⟨a, List.mem_cons_self .., rfl⟩

end Sys2Proof.Machine
end

