-- ==== Sys2Proof/Laws/PerInstr.lean ====
section
/-! SUPPORT. The statement made per instruction: the word of a command has its row's match under its row's mask in
spec/opcode_table.json, whatever its operands. -/

namespace Sys2Proof.Laws.EncodeRow

/-- The encoded word shows the command's table row. -/
def Statement (i : Instr) : Prop := encode i &&& (tableRow i).2 = (tableRow i).1

/-- A mask that keeps a word's upper part and drops its lower part. -/
theorem and_upper {m n : Nat} (x : BitVec m) (y : BitVec n) :
    (x ++ y) &&& (BitVec.allOnes m ++ 0#n) = x ++ 0#n := by
  rw [BitVec.and_append]; simp

theorem setcolor (g r b : Byte) : Statement (.setcolor g r b) := by
  have h : encode (.setcolor g r b) = 0x10#8 ++ (g ++ r ++ b) := by
    apply BitVec.eq_of_toNat_eq
    rw [encode, toNat_concat, toNat_concat, toNat_concat, toNat_concat, toNat_concat, toNat_concat]
    omega
  exact (congrArg (· &&& _) h).trans (and_upper (0x10#8) (g ++ r ++ b))

theorem set (idx : Int) : Statement (.set idx) := and_upper (0x20#8) (BitVec.ofInt 24 idx)

theorem setxy (x y : Int) : Statement (.setxy x y) := by
  have h : encode (.setxy x y) = 0x30#8 ++ (BitVec.ofInt 12 x ++ BitVec.ofInt 12 y) := by
    simp only [encode, BitVec.append_assoc]; rfl
  exact (congrArg (· &&& _) h).trans (and_upper (0x30#8) (BitVec.ofInt 12 x ++ BitVec.ofInt 12 y))

theorem fill : Statement .fill := rfl

theorem clear : Statement .clear := rfl

theorem drawg (x : Int) (c : Byte) : Statement (.drawg x c) := by
  have h : encode (.drawg x c) = 0x60#8 ++ (BitVec.ofInt 16 x ++ c) := by
    simp only [encode, BitVec.append_assoc]; rfl
  exact (congrArg (· &&& _) h).trans (and_upper (0x60#8) (BitVec.ofInt 16 x ++ c))

theorem gwidth (c : Byte) : Statement (.gwidth c) := and_upper (0x700000#24) c

theorem grow (row c : Byte) : Statement (.grow row c) := by
  have h : encode (.grow row c) = 0x8000#16 ++ (row ++ c) := by
    simp only [encode, BitVec.append_assoc]; rfl
  exact (congrArg (· &&& _) h).trans (and_upper (0x8000#16) (row ++ c))

theorem vnone : Statement .vnone := rfl

theorem vstr : Statement .vstr := rfl

theorem vpush (c : Byte) : Statement (.vpush c) := and_upper (0xA00000#24) c

theorem vint (imm : Int) : Statement (.vint imm) := and_upper (0xB0#8) (BitVec.ofInt 24 imm)

theorem canr : Statement .canr := rfl

theorem drawv (sign : Bool) (align : Align) : Statement (.drawv sign align) := by
  cases sign <;> cases align <;> rfl

theorem transmit : Statement .transmit := rfl

end Sys2Proof.Laws.EncodeRow
end

