-- ==== Sys2Proof/Laws/Renderer.lean ====
section
/-! SUPPORT. What painting does to a framebuffer, said once for one pixel, one glyph and one string: the entries of a set
take the colour, every other entry stays, and the canonical form is kept. -/

namespace Sys2Proof.Machine

/-- `m'` is `m` with every entry below `n` that satisfies `lit` set to `v`, in canonical form. -/
def Paints (n : Nat) (v : Color) (lit : Nat → Prop) (m m' : Memory) : Prop :=
  Memory.wf n m' ∧ (∀ k, k < n → lit k → m'.read k = v) ∧ (∀ k, ¬ (k < n ∧ lit k) → m'.read k = m.read k)

/-- Painting nothing. -/
theorem Paints.refl {n : Nat} {v : Color} {m : Memory} (hm : Memory.wf n m) : Paints n v (fun _ => False) m m :=
  ⟨hm, fun _ _ h => h.elim, fun _ _ => rfl⟩

/-- Painting one set and then another paints their union. -/
theorem Paints.trans {n : Nat} {v : Color} {p q : Nat → Prop} {a b c : Memory} (h1 : Paints n v p a b)
    (h2 : Paints n v q b c) : Paints n v (fun k => p k ∨ q k) a c := by
  refine ⟨h2.1, fun k hk hpq => ?_, fun k hk => ?_⟩
  · by_cases hq : q k
    · exact h2.2.1 k hk hq
    · rw [h2.2.2 k (fun h => hq h.2)]
      exact h1.2.1 k hk (hpq.resolve_right hq)
  · rw [h2.2.2 k (fun h => hk ⟨h.1, .inr h.2⟩), h1.2.2 k (fun h => hk ⟨h.1, .inl h.2⟩)]

/-- The same painting described by an equivalent set. -/
theorem Paints.congr {n : Nat} {v : Color} {p q : Nat → Prop} {a b : Memory} (h : Paints n v p a b)
    (e : ∀ k, p k ↔ q k) : Paints n v q a b := by
  have : p = q := funext fun k => propext (e k)
  exact this ▸ h

/-- One bounds-checked write (R103). -/
theorem paints_fbset {n : Nat} {m : Memory} (hm : Memory.wf n m) (i : Int) (v : Color) :
    Paints n v (fun k => (k : Int) = i) m (fbset n i v m) :=
  ⟨wf_fbset hm i v, fun k hk h => by rw [read_fbset hm, if_pos ⟨h, hk⟩],
    fun k h => by rw [read_fbset hm, if_neg (fun ⟨a, b⟩ => h ⟨b, a⟩)]⟩

/-- A run of bounds-checked writes of one colour. -/
theorem paints_foldl {α : Type} {n : Nat} {v : Color} (f : α → Int) (ps : List α) {m : Memory} (hm : Memory.wf n m) :
    Paints n v (fun k => ∃ p ∈ ps, (k : Int) = f p) m (ps.foldl (fun m p => fbset n (f p) v m) m) := by
  induction ps generalizing m with
  | nil => exact (Paints.refl hm).congr (by simp)
  | cons p ps ih =>
    have h1 := paints_fbset hm (f p) v
    exact (h1.trans (ih h1.1)).congr (by simp)

/-- Which pixels of a glyph are lit (R93, R120). -/
theorem mem_litPixels {fh : Nat} {rows : List Nat} {p : Nat × Nat} :
    p ∈ litPixels fh rows ↔
      p.1 < fh ∧ p.2 < rowsWidth rows ∧ (glyphRow rows p.1).testBit (rowsWidth rows - 1 - p.2) = true := by
  obtain ⟨r, j⟩ := p
  simp only [litPixels, List.mem_flatMap, List.mem_range, List.mem_map, List.mem_filter, Prod.mk.injEq]
  constructor
  · rintro ⟨r', hr, j', ⟨hj, hb⟩, rfl, rfl⟩
    exact ⟨hr, hj, hb⟩
  · rintro ⟨hr, hj, hb⟩
    exact ⟨r, hr, j, ⟨hj, hb⟩, rfl, rfl⟩

/-- Entry `k` is under a pixel that `paint_glyph(c, x, v)` lights: the column is not negative and some lit pixel of the
glyph has linear index `k`. -/
def glyphLights (cfg : Config) (c : Byte) (x : Int) (k : Nat) : Prop :=
  0 ≤ x ∧ ∃ p ∈ litPixels cfg.fontHeight ((lookup cfg c).getD []), (k : Int) = linearIndex cfg (x + p.2) p.1

/-- `paint_glyph` paints exactly the entries under its lit pixels (R120). -/
theorem paints_paintGlyph {cfg : Config} {m : Memory} (hm : Memory.wf cfg.pixels m) (c : Byte) (x : Int) (v : Color) :
    Paints cfg.pixels v (glyphLights cfg c x) m (paintGlyph cfg c x v m) := by
  unfold paintGlyph
  split
  · exact (Paints.refl hm).congr fun k => ⟨False.elim, fun h => absurd h.1 (by omega)⟩
  · refine (paints_foldl (fun p : Nat × Nat => linearIndex cfg (x + p.2) p.1) _ hm).congr fun k => ?_
    exact ⟨fun h => ⟨by omega, h⟩, fun h => h.2⟩

/-- Entry `k` is under a pixel that `paint_string(s, x, v)` lights. -/
def stringLights (cfg : Config) : List Byte → Int → Nat → Prop
  | [], _, _ => False
  | c :: rest, x, k => glyphLights cfg c x k ∨ stringLights cfg rest (x + glyphWidth cfg c + 1) k

/-- `paint_string` paints exactly the entries under its lit pixels (R132). -/
theorem paints_paintString {cfg : Config} (v : Color) (str : List Byte) (x : Int) {m : Memory}
    (hm : Memory.wf cfg.pixels m) : Paints cfg.pixels v (stringLights cfg str x) m (paintString cfg v str x m) := by
  induction str generalizing x m with
  | nil => exact Paints.refl hm
  | cons c rest ih =>
    have h1 := paints_paintGlyph hm c x v
    exact h1.trans (ih _ h1.1)

end Sys2Proof.Machine
end

