-- ==== Sys2Proof/Laws/State.lean ====
section
/-! SUPPORT. One lemma per field per named update of the state, so that no later proof unfolds a record update. -/

namespace Sys2Proof.Machine

/-! Fields after `State.finish`. -/

@[simp] theorem State.finish_color (s : State) (e : ErrCode) : (s.finish e).color = s.color := rfl
@[simp] theorem State.finish_result (s : State) (e : ErrCode) : (s.finish e).result = s.result := rfl
@[simp] theorem State.finish_found (s : State) (e : ErrCode) : (s.finish e).found = s.found := rfl
@[simp] theorem State.finish_canr (s : State) (e : ErrCode) : (s.finish e).canr = s.canr := rfl
@[simp] theorem State.finish_err (s : State) (e : ErrCode) : (s.finish e).err = e := rfl
@[simp] theorem State.finish_serState (s : State) (e : ErrCode) : (s.finish e).serState = s.serState := rfl
@[simp] theorem State.finish_serK (s : State) (e : ErrCode) : (s.finish e).serK = s.serK := rfl
@[simp] theorem State.finish_latchCnt (s : State) (e : ErrCode) : (s.finish e).latchCnt = s.latchCnt := rfl
@[simp] theorem State.finish_dout (s : State) (e : ErrCode) : (s.finish e).dout = s.dout := rfl
@[simp] theorem State.finish_vkind (s : State) (e : ErrCode) : (s.finish e).vkind = s.vkind := rfl
@[simp] theorem State.finish_text (s : State) (e : ErrCode) : (s.finish e).text = s.text := rfl
@[simp] theorem State.finish_tlen (s : State) (e : ErrCode) : (s.finish e).tlen = s.tlen := rfl
@[simp] theorem State.finish_vint (s : State) (e : ErrCode) : (s.finish e).vint = s.vint := rfl
@[simp] theorem State.finish_fb (s : State) (e : ErrCode) : (s.finish e).fb = s.fb := rfl
@[simp] theorem State.finish_cfg (s : State) (e : ErrCode) : (s.finish e).cfg = s.cfg := rfl
@[simp] theorem State.finish_bus (s : State) (e : ErrCode) : (s.finish e).bus = s.bus := rfl
@[simp] theorem State.finish_turns (s : State) (e : ErrCode) : (s.finish e).turns = s.turns := rfl
@[simp] theorem State.finish_reads (s : State) (e : ErrCode) : (s.finish e).reads = s.reads := rfl

/-! Fields after `State.withFb`. -/

@[simp] theorem State.withFb_color (s : State) (m : Memory) : (s.withFb m).color = s.color := rfl
@[simp] theorem State.withFb_result (s : State) (m : Memory) : (s.withFb m).result = s.result := rfl
@[simp] theorem State.withFb_found (s : State) (m : Memory) : (s.withFb m).found = s.found := rfl
@[simp] theorem State.withFb_canr (s : State) (m : Memory) : (s.withFb m).canr = s.canr := rfl
@[simp] theorem State.withFb_err (s : State) (m : Memory) : (s.withFb m).err = s.err := rfl
@[simp] theorem State.withFb_serState (s : State) (m : Memory) : (s.withFb m).serState = s.serState := rfl
@[simp] theorem State.withFb_serK (s : State) (m : Memory) : (s.withFb m).serK = s.serK := rfl
@[simp] theorem State.withFb_latchCnt (s : State) (m : Memory) : (s.withFb m).latchCnt = s.latchCnt := rfl
@[simp] theorem State.withFb_dout (s : State) (m : Memory) : (s.withFb m).dout = s.dout := rfl
@[simp] theorem State.withFb_vkind (s : State) (m : Memory) : (s.withFb m).vkind = s.vkind := rfl
@[simp] theorem State.withFb_text (s : State) (m : Memory) : (s.withFb m).text = s.text := rfl
@[simp] theorem State.withFb_tlen (s : State) (m : Memory) : (s.withFb m).tlen = s.tlen := rfl
@[simp] theorem State.withFb_vint (s : State) (m : Memory) : (s.withFb m).vint = s.vint := rfl
@[simp] theorem State.withFb_fb (s : State) (m : Memory) : (s.withFb m).fb = m := rfl
@[simp] theorem State.withFb_cfg (s : State) (m : Memory) : (s.withFb m).cfg = s.cfg := rfl
@[simp] theorem State.withFb_bus (s : State) (m : Memory) : (s.withFb m).bus = s.bus := rfl
@[simp] theorem State.withFb_turns (s : State) (m : Memory) : (s.withFb m).turns = s.turns := rfl
@[simp] theorem State.withFb_reads (s : State) (m : Memory) : (s.withFb m).reads = s.reads := rfl

/-! Fields after `State.reportLookup`. -/

@[simp] theorem State.reportLookup_color (s : State) (v : Option Nat) : (s.reportLookup v).color = s.color := rfl
@[simp] theorem State.reportLookup_result (s : State) (v : Option Nat) : (s.reportLookup v).result = BitVec.ofNat 32 (v.getD 0) := rfl
@[simp] theorem State.reportLookup_found (s : State) (v : Option Nat) : (s.reportLookup v).found = v.isSome := rfl
@[simp] theorem State.reportLookup_canr (s : State) (v : Option Nat) : (s.reportLookup v).canr = s.canr := rfl
@[simp] theorem State.reportLookup_err (s : State) (v : Option Nat) : (s.reportLookup v).err = s.err := rfl
@[simp] theorem State.reportLookup_serState (s : State) (v : Option Nat) : (s.reportLookup v).serState = s.serState := rfl
@[simp] theorem State.reportLookup_serK (s : State) (v : Option Nat) : (s.reportLookup v).serK = s.serK := rfl
@[simp] theorem State.reportLookup_latchCnt (s : State) (v : Option Nat) : (s.reportLookup v).latchCnt = s.latchCnt := rfl
@[simp] theorem State.reportLookup_dout (s : State) (v : Option Nat) : (s.reportLookup v).dout = s.dout := rfl
@[simp] theorem State.reportLookup_vkind (s : State) (v : Option Nat) : (s.reportLookup v).vkind = s.vkind := rfl
@[simp] theorem State.reportLookup_text (s : State) (v : Option Nat) : (s.reportLookup v).text = s.text := rfl
@[simp] theorem State.reportLookup_tlen (s : State) (v : Option Nat) : (s.reportLookup v).tlen = s.tlen := rfl
@[simp] theorem State.reportLookup_vint (s : State) (v : Option Nat) : (s.reportLookup v).vint = s.vint := rfl
@[simp] theorem State.reportLookup_fb (s : State) (v : Option Nat) : (s.reportLookup v).fb = s.fb := rfl
@[simp] theorem State.reportLookup_cfg (s : State) (v : Option Nat) : (s.reportLookup v).cfg = s.cfg := rfl
@[simp] theorem State.reportLookup_bus (s : State) (v : Option Nat) : (s.reportLookup v).bus = s.bus := rfl
@[simp] theorem State.reportLookup_turns (s : State) (v : Option Nat) : (s.reportLookup v).turns = s.turns := rfl
@[simp] theorem State.reportLookup_reads (s : State) (v : Option Nat) : (s.reportLookup v).reads = s.reads := rfl

/-! Fields after `State.pushChar`. -/

@[simp] theorem State.pushChar_color (s : State) (i : Nat) (c : Byte) : (s.pushChar i c).color = s.color := rfl
@[simp] theorem State.pushChar_result (s : State) (i : Nat) (c : Byte) : (s.pushChar i c).result = s.result := rfl
@[simp] theorem State.pushChar_found (s : State) (i : Nat) (c : Byte) : (s.pushChar i c).found = s.found := rfl
@[simp] theorem State.pushChar_canr (s : State) (i : Nat) (c : Byte) : (s.pushChar i c).canr = s.canr := rfl
@[simp] theorem State.pushChar_err (s : State) (i : Nat) (c : Byte) : (s.pushChar i c).err = s.err := rfl
@[simp] theorem State.pushChar_serState (s : State) (i : Nat) (c : Byte) : (s.pushChar i c).serState = s.serState := rfl
@[simp] theorem State.pushChar_serK (s : State) (i : Nat) (c : Byte) : (s.pushChar i c).serK = s.serK := rfl
@[simp] theorem State.pushChar_latchCnt (s : State) (i : Nat) (c : Byte) : (s.pushChar i c).latchCnt = s.latchCnt := rfl
@[simp] theorem State.pushChar_dout (s : State) (i : Nat) (c : Byte) : (s.pushChar i c).dout = s.dout := rfl
@[simp] theorem State.pushChar_vkind (s : State) (i : Nat) (c : Byte) : (s.pushChar i c).vkind = .str := rfl
@[simp] theorem State.pushChar_text (s : State) (i : Nat) (c : Byte) : (s.pushChar i c).text = s.text.setIfInBounds i c := rfl
@[simp] theorem State.pushChar_tlen (s : State) (i : Nat) (c : Byte) : (s.pushChar i c).tlen = i + 1 := rfl
@[simp] theorem State.pushChar_vint (s : State) (i : Nat) (c : Byte) : (s.pushChar i c).vint = s.vint := rfl
@[simp] theorem State.pushChar_fb (s : State) (i : Nat) (c : Byte) : (s.pushChar i c).fb = s.fb := rfl
@[simp] theorem State.pushChar_cfg (s : State) (i : Nat) (c : Byte) : (s.pushChar i c).cfg = s.cfg := rfl
@[simp] theorem State.pushChar_bus (s : State) (i : Nat) (c : Byte) : (s.pushChar i c).bus = s.bus := rfl
@[simp] theorem State.pushChar_turns (s : State) (i : Nat) (c : Byte) : (s.pushChar i c).turns = s.turns := rfl
@[simp] theorem State.pushChar_reads (s : State) (i : Nat) (c : Byte) : (s.pushChar i c).reads = s.reads := rfl

/-! Fields after `State.popBus`. -/

@[simp] theorem State.popBus_color (s : State) : (s.popBus).color = s.color := rfl
@[simp] theorem State.popBus_result (s : State) : (s.popBus).result = s.result := rfl
@[simp] theorem State.popBus_found (s : State) : (s.popBus).found = s.found := rfl
@[simp] theorem State.popBus_canr (s : State) : (s.popBus).canr = s.canr := rfl
@[simp] theorem State.popBus_err (s : State) : (s.popBus).err = s.err := rfl
@[simp] theorem State.popBus_serState (s : State) : (s.popBus).serState = s.serState := rfl
@[simp] theorem State.popBus_serK (s : State) : (s.popBus).serK = s.serK := rfl
@[simp] theorem State.popBus_latchCnt (s : State) : (s.popBus).latchCnt = s.latchCnt := rfl
@[simp] theorem State.popBus_dout (s : State) : (s.popBus).dout = s.dout := rfl
@[simp] theorem State.popBus_vkind (s : State) : (s.popBus).vkind = s.vkind := rfl
@[simp] theorem State.popBus_text (s : State) : (s.popBus).text = s.text := rfl
@[simp] theorem State.popBus_tlen (s : State) : (s.popBus).tlen = s.tlen := rfl
@[simp] theorem State.popBus_vint (s : State) : (s.popBus).vint = s.vint := rfl
@[simp] theorem State.popBus_fb (s : State) : (s.popBus).fb = s.fb := rfl
@[simp] theorem State.popBus_cfg (s : State) : (s.popBus).cfg = s.cfg := rfl
@[simp] theorem State.popBus_bus (s : State) : (s.popBus).bus = s.bus.tail := rfl
@[simp] theorem State.popBus_turns (s : State) : (s.popBus).turns = s.turns := rfl
@[simp] theorem State.popBus_reads (s : State) : (s.popBus).reads = s.reads := rfl

/-! Fields after `State.popTurn`. -/

@[simp] theorem State.popTurn_color (s : State) : (s.popTurn).color = s.color := rfl
@[simp] theorem State.popTurn_result (s : State) : (s.popTurn).result = s.result := rfl
@[simp] theorem State.popTurn_found (s : State) : (s.popTurn).found = s.found := rfl
@[simp] theorem State.popTurn_canr (s : State) : (s.popTurn).canr = s.canr := rfl
@[simp] theorem State.popTurn_err (s : State) : (s.popTurn).err = s.err := rfl
@[simp] theorem State.popTurn_serState (s : State) : (s.popTurn).serState = s.serState := rfl
@[simp] theorem State.popTurn_serK (s : State) : (s.popTurn).serK = s.serK := rfl
@[simp] theorem State.popTurn_latchCnt (s : State) : (s.popTurn).latchCnt = s.latchCnt := rfl
@[simp] theorem State.popTurn_dout (s : State) : (s.popTurn).dout = s.dout := rfl
@[simp] theorem State.popTurn_vkind (s : State) : (s.popTurn).vkind = s.vkind := rfl
@[simp] theorem State.popTurn_text (s : State) : (s.popTurn).text = s.text := rfl
@[simp] theorem State.popTurn_tlen (s : State) : (s.popTurn).tlen = s.tlen := rfl
@[simp] theorem State.popTurn_vint (s : State) : (s.popTurn).vint = s.vint := rfl
@[simp] theorem State.popTurn_fb (s : State) : (s.popTurn).fb = s.fb := rfl
@[simp] theorem State.popTurn_cfg (s : State) : (s.popTurn).cfg = s.cfg := rfl
@[simp] theorem State.popTurn_bus (s : State) : (s.popTurn).bus = s.bus := rfl
@[simp] theorem State.popTurn_turns (s : State) : (s.popTurn).turns = s.turns.tail := rfl
@[simp] theorem State.popTurn_reads (s : State) : (s.popTurn).reads = s.reads := rfl

end Sys2Proof.Machine
end

