-- ==== Sys2Proof/Laws/Step.lean ====
section
/-! SUPPORT. What a step of the machine and of the host can do, said once: later proofs take their cases from here and
unfold neither `step` nor `hostStep`. -/

namespace Sys2Proof.Machine

/-- A listed turn is taken by its agent. -/
theorem step_of_turn {s : State} {t : Turn} {ts : List Turn} (h : s.turns = t :: ts) :
    step s = agentStep t { s with turns := ts } := by
  simp [step, mover, h, State.popTurn]

/-- A step that answers a next state is the slot clock's, the reset input's or the host's. -/
theorem step_next_cases {s t : State} (h : step s = .next t) :
    (mover s = .slot ∧ t = slotStep s.popTurn) ∨ (mover s = .reset ∧ t = resetStep s.popTurn) ∨
    (mover s = .host ∧ hostStep s.popTurn = .next t) := by
  unfold step agentStep at h
  split at h
  · exact .inr (.inr ⟨‹_›, h⟩)
  · exact .inl ⟨‹_›, (Host.Outcome.next.inj h).symm⟩
  · exact .inr (.inl ⟨‹_›, (Host.Outcome.next.inj h).symm⟩)

/-- Which accesses the window admits, and at which offset (R51). -/
theorem windowOffset_ok_iff {c : Config} {width : Width} {addr off : Nat} :
    windowOffset c width addr = .ok off ↔
      width = .word ∧ c.base ≤ addr ∧ addr < c.base + windowBytes ∧ (addr - c.base) % 4 = 0 ∧ off = addr - c.base := by
  unfold windowOffset
  split
  · simp_all
  · split
    · simp; omega
    · split
      · simp_all
      · simp_all; omega

/-- An access that is not admitted is refused by one of the three names of R51. -/
theorem windowOffset_error {c : Config} {width : Width} {addr : Nat} {r : Refusal}
    (h : windowOffset c width addr = .error r) :
    r = .accessWidth ∨ r = .accessMisaligned ∨ r = .accessOutsideWindow := by
  unfold windowOffset at h
  split at h
  · simp_all
  · split at h
    · simp_all
    · split at h <;> simp_all

/-- An accepted command word runs the command it decodes to, or only reports `E_ILLEGAL`. -/
theorem acceptCommand_cases (w : Word) (s : State) :
    (∃ i, decode w = .ok i ∧ acceptCommand w s = exec i s) ∨
    ((∃ r, decode w = .error r) ∧ acceptCommand w s = .next (s.finish .illegal)) := by
  unfold acceptCommand
  split
  · exact .inl ⟨_, ‹_›, rfl⟩
  · exact .inr ⟨⟨_, ‹_›⟩, rfl⟩

/-- What a host step that answers a next state did: nothing (no access, or a held one), a read, an ignored write, or an
accepted command of an idle block. -/
theorem hostStep_next_cases {s t : State} (h : hostStep s = .next t) :
    t = s ∨ (∃ off, t = { s.popBus with reads := readReg s off :: s.reads }) ∨ t = s.popBus ∨
    (∃ w, busy s = false ∧ acceptCommand w s.popBus = .next t) := by
  unfold hostStep at h
  split at h
  · exact .inl (Host.Outcome.next.inj h).symm
  · split at h
    · cases h
    · exact .inr (.inl ⟨_, (Host.Outcome.next.inj h).symm⟩)
  · split at h
    · cases h
    · split at h
      · split at h
        · exact .inl (Host.Outcome.next.inj h).symm
        · exact .inr (.inr (.inr ⟨_, by simpa using ‹¬ busy s = true›, h⟩))
      · exact .inr (.inr (.inl (Host.Outcome.next.inj h).symm))

/-- The host's step never faults, and refuses only an access that is not admitted. -/
theorem hostStep_refused_cases {s : State} {r : Refusal} (h : hostStep s = .refused r)
    (hexec : ∀ i u, exec i u ≠ .refused r) :
    r = .accessWidth ∨ r = .accessMisaligned ∨ r = .accessOutsideWindow := by
  unfold hostStep at h
  split at h
  · cases h
  · split at h
    · cases h; exact windowOffset_error ‹_›
    · cases h
  · split at h
    · cases h; exact windowOffset_error ‹_›
    · split at h
      · split at h
        · cases h
        · rcases acceptCommand_cases _ s.popBus with ⟨i, _, hi⟩ | ⟨_, hi⟩
          · rw [hi] at h; exact absurd h (hexec i _)
          · rw [hi] at h; cases h
      · cases h

/-- A slot step changes nothing but the serializer, the latch count and the line. -/
theorem slotStep_eq (s : State) :
    slotStep s = { s with serState := (slotStep s).serState, serK := (slotStep s).serK,
                          latchCnt := (slotStep s).latchCnt, dout := (slotStep s).dout } := by
  unfold slotStep slotIdle slotWait slotSend
  split
  · rfl
  · split
    · rfl
    · split <;> rfl
  · split <;> rfl

/-- A slot step does not look at the schedule. -/
theorem slotStep_popTurn (s : State) : slotStep s.popTurn = (slotStep s).popTurn := by
  unfold slotStep slotIdle slotWait slotSend State.popTurn
  simp only []
  split <;> (try split) <;> (try split) <;> rfl

end Sys2Proof.Machine
end

