-- ==== Sys2Proof/Laws/Run.lean ====
section
/-! SUPPORT. Runs of the whole machine, one step at a time: their states and their wire output. -/

namespace Sys2Proof.Machine

/-- A run of one step more is a step and then a run. -/
theorem run_succ_iff (n : Nat) (s t : State) :
    Host.Core.run Sys2Proof.core (n + 1) s = .next t ↔
      ∃ u, step s = .next u ∧ Host.Core.run Sys2Proof.core n u = .next t := by
  cases h : step s with
  | next u => simp [Host.Core.run, show Sys2Proof.core.step s = _ from h]
  | fault r => simp [Host.Core.run, show Sys2Proof.core.step s = _ from h]
  | refused r => simp [Host.Core.run, show Sys2Proof.core.step s = _ from h]

/-- A slot step puts its level on the run's wire output. -/
theorem runWire_slot {s t : State} (h : step s = .next t) (hm : mover s = .slot) (n : Nat) :
    runWire (n + 1) s = t.dout :: runWire n t := by
  simp [runWire, h, hm]

/-- A step of the host or of reset puts nothing on it. -/
theorem runWire_other {s t : State} (h : step s = .next t) (hm : mover s ≠ .slot) (n : Nat) :
    runWire (n + 1) s = runWire n t := by
  simp [runWire, h, hm]

/-- Reset moves only where it is listed. -/
theorem reset_mem_of_mover {s : State} (h : mover s = .reset) : .reset ∈ s.turns := by
  unfold mover at h
  split at h
  · subst h; simp [*]
  · split at h <;> cases h

/-- A slot step does not look at the host's side of the state and keeps it. -/
theorem slotStep_hostSide (s : State) (b : List Access) (ts : List Turn) (rs : List Word) :
    slotStep { s with bus := b, turns := ts, reads := rs } =
      { slotStep s with bus := b, turns := ts, reads := rs } := by
  unfold slotStep slotIdle slotWait slotSend
  simp only []
  split <;> (try split) <;> (try split) <;> rfl

end Sys2Proof.Machine
end

