-- ==== Sys2Proof/Laws/Serializer.lean ====
section
/-! SUPPORT. Runs of the slot clock: how they compose, what a settling interval does, and what the slots of a frame
do. -/

namespace Sys2Proof.Machine

/-- A run of slot steps splits at any point. -/
theorem slotSteps_add (m n : Nat) (s : State) : slotSteps (m + n) s = slotSteps n (slotSteps m s) := by
  induction m generalizing s with
  | zero => simp [slotSteps]
  | succ m ih => rw [Nat.succ_add]; exact ih _

/-- One more slot step at the end of a run. -/
theorem slotSteps_succ (n : Nat) (s : State) : slotSteps (n + 1) s = slotStep (slotSteps n s) :=
  slotSteps_add n 1 s

/-- The wire output of a run splits with it. -/
theorem wire_add (m n : Nat) (s : State) : wire (m + n) s = wire m s ++ wire n (slotSteps m s) := by
  induction m generalizing s with
  | zero => simp [slotSteps, wire]
  | succ m ih => rw [Nat.succ_add]; simp only [wire, slotSteps, List.cons_append, ih]

/-- The level of slot `i` of a run is `DOUT` after `i + 1` steps. -/
theorem wire_eq_map (n : Nat) (s : State) :
    wire n s = (List.range n).map (fun i => (slotSteps (i + 1) s).dout) := by
  induction n with
  | zero => rfl
  | succ n ih => rw [wire_add, ih, List.range_succ, List.map_append]; simp [wire, slotSteps_succ]

/-- One settling slot: the line is LOW and the count falls by 1, in `IDLE` and in `WAIT` (R157, R158). -/
theorem slotStep_settling {s : State} (hs : s.serState ≠ .send) (hl : 0 < s.latchCnt) :
    slotStep s = { s with dout := false, latchCnt := s.latchCnt - 1 } := by
  unfold slotStep
  split
  · rfl
  · rw [slotWait, if_pos hl]
  · exact absurd ‹_› hs

/-- The settling slots of a run. -/
theorem slotSteps_settling {s : State} (hs : s.serState ≠ .send) (n : Nat) (hn : n ≤ s.latchCnt) :
    slotSteps n s = { s with dout := if n = 0 then s.dout else false, latchCnt := s.latchCnt - n } := by
  induction n with
  | zero => simp [slotSteps]
  | succ n ih =>
    rw [slotSteps_succ, ih (by omega), slotStep_settling (by exact hs) (by simp only; omega)]
    simp [Nat.sub_sub]

/-- A frame starts in the waiting step that finds the settling interval over (R158). -/
theorem slotStep_start {s : State} (hs : s.serState = .wait) (hl : s.latchCnt = 0) :
    slotStep s = slotStep { s with serState := .send, serK := 0 } := by
  simp [slotStep, hs, slotWait, hl]

/-- A slot of a frame that is not its last (R159). -/
theorem slotStep_send {s : State} (hs : s.serState = .send) (hk : s.serK + 1 ≠ frameSlots s.cfg) :
    slotStep s = { s with dout := frameLevel s.fb s.serK, serK := s.serK + 1 } := by
  simp [slotStep, hs, slotSend, hk]

/-- The last slot of a frame (R160). -/
theorem slotStep_last {s : State} (hs : s.serState = .send) (hk : s.serK + 1 = frameSlots s.cfg) :
    slotStep s = { s with dout := frameLevel s.fb s.serK, serState := .idle, serK := 0, latchCnt := latchSlots } := by
  simp [slotStep, hs, slotSend, hk]

/-- The slots of a run inside a frame. -/
theorem slotSteps_send {s : State} (hs : s.serState = .send) (n : Nat) (hn : s.serK + n < frameSlots s.cfg) :
    slotSteps n s = { s with serK := s.serK + n,
                             dout := if n = 0 then s.dout else frameLevel s.fb (s.serK + n - 1) } := by
  induction n with
  | zero => simp [slotSteps]
  | succ n ih =>
    rw [slotSteps_succ, ih (by omega), slotStep_send (by exact hs) (by simp only; omega)]
    simp [Nat.add_assoc]

end Sys2Proof.Machine
end

