-- ==== Sys2Proof/Tests/Slice0.lean ====
section
/-! SUPPORT. The model's own tests. Expected results are the spec's: 95_test_vectors.md, the examples of the command rules,
or worked by hand from the rules; each test names its source. Tests of one instruction run one step. -/

namespace Sys2Proof.Tests

open Sys2Proof Sys2Proof.Machine Sys2Proof.Spec

/-- The next state of an outcome; the reset state of the smallest matrix where there is none. -/
def after (o : Host.Outcome State Fault Refusal) : State :=
  match o with
  | .next t => t
  | _ => State.resetOf (Config.test 1 1)

/-- An outcome is a next state. -/
def isNext (o : Host.Outcome State Fault Refusal) : Bool :=
  match o with
  | .next _ => true
  | _ => false

/-- The reason of a refusal. -/
def refusal (o : Host.Outcome State Fault Refusal) : Option Refusal :=
  match o with
  | .refused r => some r
  | _ => none

/-- The reset state with TESTFONT and a matrix of the given size. -/
def st (w h : Nat) : State := State.resetOf (Config.test w h)

/-- A `W = 16`, `H = 5` state with `COLOR = 0x000300`, as 95_test_vectors.md's framebuffer vectors use. -/
def red : State := { st 16 5 with color := 0x000300 }

/-- The indices that hold the given colour. -/
def lit (v : Color) (s : State) : List Nat := (s.fb.filter (·.2 = v)).map (·.1)

/-- A state whose value register holds a string. -/
def withText (s : State) (cs : List Byte) : State :=
  { s with vkind := .str, tlen := cs.length, text := Vector.ofFn fun i => cs.getD i.val 0 }

/-- A state with one access pending and the host to move. -/
def hostTurn (s : State) (a : Access) : State := { s with turns := [.host], bus := [a] }

/-! ### Well-formedness refuses each operand out of its range (R87) -/

theorem test_wf_set : ¬ (Instr.set 8388608).WellFormed ∧ ¬ (Instr.set (-8388609)).WellFormed := by decide
theorem test_wf_setxy : ¬ (Instr.setxy 2048 0).WellFormed ∧ ¬ (Instr.setxy (-2049) 0).WellFormed ∧
    ¬ (Instr.setxy 0 2048).WellFormed ∧ ¬ (Instr.setxy 0 (-2049)).WellFormed := by decide
theorem test_wf_drawg : ¬ (Instr.drawg 32768 0x30).WellFormed ∧ ¬ (Instr.drawg (-32769) 0x30).WellFormed := by decide
theorem test_wf_vint : ¬ (Instr.vint 8388608).WellFormed ∧ ¬ (Instr.vint (-8388609)).WellFormed := by decide
/-- Configurations that break one clause of R7 or R8 each. -/
def badBase : Config := { Config.atReset with base := 4 }
def badPin : Config := { Config.atReset with pinClaimable := false }
def badGlyphBits : Config := { Config.atReset with glyphBits := 2 }
def badHeight : Config := { Config.atReset with fontHeight := 6 }

theorem test_wf_config : ¬ (Config.test 0 5).Wf ∧ ¬ (Config.test 64 65).Wf ∧ ¬ badBase.Wf ∧ ¬ badPin.Wf ∧
    ¬ badGlyphBits.Wf ∧ ¬ badHeight.Wf :=
  ⟨by decide, by decide, by decide, by decide, by decide, by decide⟩

/-! ### Decoding: words written out field by field from R72, and the decoder vectors of 95_test_vectors.md -/

theorem test_decode_setcolor : decode 0b0001_0000_00000000_00000011_00000000 = .ok (.setcolor 0 3 0) := rfl
theorem test_decode_set : decode 0b0010_0000_111111111111111111111111 = .ok (.set (-1)) := rfl
theorem test_decode_set_min : decode 0x20800000 = .ok (.set (-8388608)) := rfl
theorem test_decode_setxy : decode 0b0011_0000_111111111111_000000000001 = .ok (.setxy (-1) 1) := rfl
theorem test_decode_setxy_min : decode 0x30800000 = .ok (.setxy (-2048) 0) := rfl
theorem test_decode_fill : decode 0b0100_0000000000000000000000000000 = .ok .fill := rfl
theorem test_decode_clear : decode 0b0101_0000000000000000000000000000 = .ok .clear := rfl
theorem test_decode_drawg : decode 0b0110_0000_1111111111111111_00110100 = .ok (.drawg (-1) 0x34) := rfl
theorem test_decode_gwidth : decode 0b0111_0000_0000_0000_0000_0000_00111001 = .ok (.gwidth 0x39) := rfl
theorem test_decode_grow : decode 0b1000_0000_0000_0000_00000010_00110000 = .ok (.grow 2 0x30) := rfl
theorem test_decode_vnone : decode 0b1001_0000_0000_0000_0000_0000_0000_0000 = .ok .vnone := rfl
theorem test_decode_vstr : decode 0b1001_0000_0000_0000_0000_0000_0000_0001 = .ok .vstr := rfl
theorem test_decode_vpush : decode 0b1010_0000_0000_0000_0000_0000_00111010 = .ok (.vpush 0x3A) := rfl
theorem test_decode_vint : decode 0b1011_0000_111111111111111111111001 = .ok (.vint (-7)) := rfl
theorem test_decode_canr : decode 0b1100_0000000000000000000000000000 = .ok .canr := rfl
theorem test_decode_drawv : decode 0b1101_0000_0000_0000_0000_0000_0000_0_1_10 = .ok (.drawv true .center) := rfl
theorem test_decode_drawv_right : decode 0b1101_0000_0000_0000_0000_0000_0000_0_0_01 = .ok (.drawv false .right) := rfl
theorem test_decode_transmit : decode 0b1110_0000000000000000000000000000 = .ok .transmit := rfl
theorem test_decode_reserved_opcodes : decode 0x00000000 = .error .reservedOpcode ∧
    decode 0xF0000000 = .error .reservedOpcode ∧ decode 0xFFFFFFFF = .error .reservedOpcode := ⟨rfl, rfl, rfl⟩
theorem test_decode_reserved_bits : decode 0x11000300 = .error .reservedBits ∧ decode 0x40000001 = .error .reservedBits ∧
    decode 0x70000130 = .error .reservedBits ∧ decode 0x80010030 = .error .reservedBits ∧
    decode 0xD0000008 = .error .reservedBits ∧ decode 0xE0000001 = .error .reservedBits ∧
    decode 0x2FFFFFFF = .error .reservedBits := ⟨rfl, rfl, rfl, rfl, rfl, rfl, rfl⟩
theorem test_decode_reserved_fields : decode 0x90000002 = .error .reservedField ∧
    decode 0x90000003 = .error .reservedField ∧ decode 0xD0000003 = .error .reservedField := ⟨rfl, rfl, rfl⟩
theorem test_table_word : decodeTableWord 32 0x60000734 = some (.drawg 7 0x34) ∧ decodeTableWord 32 0 = none := by decide

/-- Assembler lines of R81's example column and of R87, R88. -/
theorem test_assemble : assembleLine "setxy -1, 1".toList = some [0x30FFF001] ∧
    assembleLine "drawg '4', 7".toList = some [0x60000734] ∧ assembleLine "drawv".toList = some [0xD0000002] ∧
    assembleLine "set 8388608".toList = none ∧ assembleLine "gwidth 0x39".toList = some [0x70000039] := by
  decide +kernel

/-! ### Framebuffer family (95_test_vectors.md, 42_framebuffer.md) -/

theorem test_setcolor : (after (exec (.setcolor 2 1 3) red)).color = 0x020103 := by decide
theorem test_set : lit 0x000300 (after (exec (.set 17) red)) = [17] := by decide
theorem test_set_out_of_range : (after (exec (.set (-1)) red)).fb = [] ∧ (after (exec (.set 80) red)).fb = [] := by decide
theorem test_setxy_wraps : lit 0x000300 (after (exec (.setxy (-1) 1) red)) = [15] ∧
    lit 0x000300 (after (exec (.setxy 32 (-1)) red)) = [16] := by decide
theorem test_setxy_out_of_range : (after (exec (.setxy (-1) 0) red)).fb = [] ∧
    (after (exec (.setxy 0 5) red)).fb = [] := by decide
theorem test_fill : (after (exec .fill { st 2 1 with color := 0x010000 })).fb = [(0, 0x010000), (1, 0x010000)] := by decide
theorem test_clear : (after (exec .clear { red with fb := [(3, 0x030303)] })).fb = [] ∧
    (after (exec .clear red)).color = 0x000300 := by decide

/-! ### Font family (95_test_vectors.md) -/

theorem test_gwidth : (after (exec (.gwidth 0x31) red)).result = 2 ∧ (after (exec (.gwidth 0x3A) red)).result = 1 ∧
    (after (exec (.gwidth 0x38) red)).found = true := by decide
theorem test_gwidth_not_found : (after (exec (.gwidth 0x2E) { red with found := true, result := 9 })).found = false ∧
    (after (exec (.gwidth 0x2E) { red with found := true, result := 9 })).result = 0 := by decide
theorem test_grow : (after (exec (.grow 1 0x30) red)).result = 5 ∧ (after (exec (.grow 0 0x2B) red)).found = true ∧
    (after (exec (.grow 0 0x2B) red)).result = 0 := by decide
theorem test_grow_past_height : (after (exec (.grow 5 0x30) { red with found := true })).found = false := by decide

/-! ### Glyph renderer (95_test_vectors.md V-G1, V-G2, V-G4, V-L1, V-L3, V-G12, V-G14, V-G15) -/

theorem test_drawg_short_row : lit 0x000300 (after (exec (.drawg 0 0x31) red)) = [1, 16, 17, 33, 49, 65] := by
  decide +kernel
theorem test_drawg_right_edge : lit 0x000300 (after (exec (.drawg 14 0x38) red)) =
    [14, 15, 16, 30, 32, 46, 47, 48, 62, 64, 78, 79] := by decide +kernel
theorem test_vnone : (after (exec .vnone { red with vint := 5, vkind := .int })).vint = 0 := by decide
theorem test_vstr : (after (exec .vstr { red with vint := 5, vkind := .int })).vint = 5 := by decide
theorem test_vpush_new : (after (exec (.vpush 0x33) { red with vint := 7, vkind := .int })).tlen = 1 ∧
    (after (exec (.vpush 0x33) { red with vint := 7, vkind := .int })).vint = 7 := by decide
theorem test_vpush_full : (after (exec (.vpush 0x31) { red with vkind := .str, tlen := 16 })).err = .textOvf ∧
    (after (exec (.vpush 0x31) { red with vkind := .str, tlen := 16 })).text = red.text := by decide
theorem test_vint : (after (exec (.vint (-8388608)) red)).vint.toInt = -8388608 := by decide
theorem test_canr : (after (exec .canr (withText red [0x31, 0x32, 0x61]))).canr = false ∧
    (after (exec .canr (withText red []))).canr = true := by decide
theorem test_drawv_center : lit 0x000300 (after (exec (.drawv true .center) { red with vkind := .int, vint := 49 })) =
    [7, 9, 11, 12, 13, 20, 23, 25, 27, 29, 35, 36, 37, 39, 40, 41, 43, 44, 45, 52, 57, 61, 73, 75, 76, 77] := by
  decide +kernel
theorem test_drawv_overflow : lit 0x010000 (after (exec (.drawv false .center)
      (withText { st 8 5 with color := 0x010000 } [0x38, 0x38, 0x38]))) =
    [1, 2, 3, 5, 6, 7, 9, 11, 13, 15, 17, 18, 19, 21, 22, 23, 25, 27, 29, 31, 33, 34, 35, 37, 38, 39] := by
  decide +kernel
theorem test_string_of_integer : strOf { red with vkind := .int, vint := 0 } true = [0x2B, 0x30] ∧
    strOf { red with vkind := .int, vint := BitVec.ofInt 32 (-8388608) } true =
      [0x2D, 0x38, 0x33, 0x38, 0x38, 0x36, 0x30, 0x38] := by decide

/-! ### Encoder (95_test_vectors.md V-T4, V-T5, V-T6) -/

theorem test_transmit : (after (exec .transmit red)).serState = .wait ∧ (after (exec .transmit red)).latchCnt = 80000 := by
  decide
theorem test_frame_position : frameLevel [(1, 0x800000)] 245 = true ∧ frameLevel [(0, 0x000001)] 239 = true ∧
    frameLevel [] 13 = true ∧ frameLevel [] 245 = false := by decide
theorem test_latch_counts : (slotStep { red with latchCnt := 1, dout := true }).latchCnt = 0 ∧
    (slotStep { red with latchCnt := 0, dout := true }).latchCnt = 0 ∧
    (slotStep { red with latchCnt := 1, dout := true }).dout = false := by decide
theorem test_wait_starts_frame : (slotStep { red with serState := .wait, latchCnt := 0 }).serK = 1 ∧
    (slotStep { red with serState := .wait, latchCnt := 0 }).serState = .send := by decide
theorem test_frame_ends : (slotStep { st 1 1 with serState := .send, serK := 239, latchCnt := 0 }).serState = .idle ∧
    (slotStep { st 1 1 with serState := .send, serK := 239, latchCnt := 0 }).latchCnt = 80000 := by decide

/-! ### The bus and the step -/

/-- V-P3 step 9: `STATUS` reads 0x12 with `ERR = 1` and the settling interval running. -/
theorem test_status : readReg { red with err := .illegal } 4 = 0x12 ∧
    readReg { red with err := .illegal, latchCnt := 0 } 4 = 0x10 := by decide
theorem test_config_register : readReg red 0x010 = 0x05005010 := by decide
theorem test_first_command_runs : (after (step (State.reset.withFetchWord 32 0x10000300))).color = 0x000300 := by decide
theorem test_illegal_word : (after (step (State.reset.withFetchWord 32 0x90000002))).err = .illegal := by decide
theorem test_held_write : after (step (hostTurn { red with serState := .send } (.write .word 0 0x50000000))) =
    { red with serState := .send, bus := [.write .word 0 0x50000000] } := by decide
theorem test_read_reply : (after (step (hostTurn red (.read .word 0x00C)))).reads = [0x000300] := by decide
theorem test_byte_access_refused : refusal (step (hostTurn red (.read .byte 0x00C))) = some .accessWidth := by decide
theorem test_misaligned_refused : refusal (step (hostTurn red (.read .word 0x00E))) = some .accessMisaligned := by decide
/-- R51, R56: a sub-word write at the address of `CMD` is not held by a busy block: it is refused at once. -/
theorem test_subword_cmd_write_not_held :
    cmdHeld { red with serState := .send, bus := [.write .byte 0 0x50000000] } = false ∧
    mover { red with serState := .send, bus := [.write .byte 0 0x50000000] } = .host ∧
    refusal (step { red with serState := .send, bus := [.write .byte 0 0x50000000] }) = some .accessWidth := by decide
theorem test_outside_refused : refusal (step (hostTurn red (.read .word 0x10000))) = some .accessOutsideWindow := by decide
theorem test_reset_mid_frame : after (step { red with serState := .send, serK := 9, turns := [.reset] }) = st 16 5 := by
  decide
theorem test_default_mover : mover { red with bus := [.write .word 0 0] } = .host ∧ mover red = .slot ∧
    mover { red with serState := .send, bus := [.write .word 0 0] } = .slot := by decide

/-! ### Witnesses: for every statement with hypotheses, a state and operands that meet them together, one for each
clause, at the boundaries of its range -/

/-- DecodeAndEncodeAgree: the extreme operands of every checked field, and a word that decodes. -/
theorem witness_wellFormed : (Instr.set 8388607).WellFormed ∧ (Instr.set (-8388608)).WellFormed ∧
    (Instr.setxy 2047 (-2048)).WellFormed ∧ (Instr.drawg (-32768) 0).WellFormed ∧ (Instr.drawg 32767 255).WellFormed ∧
    (Instr.vint 8388607).WellFormed ∧ decode 0x207FFFFF = .ok (.set 8388607) := ⟨by decide, by decide, by decide,
      by decide, by decide, by decide, rfl⟩
/-- EveryWordIsACommandOrIllegal: a word of each of the four classes. -/
theorem witness_word_classes : badOpcode 0xF0000000 ∧ (¬ badOpcode 0xE0000001 ∧ badBits 0xE0000001) ∧
    (¬ badOpcode 0xD0000007 ∧ ¬ badBits 0xD0000007 ∧ badField 0xD0000007) ∧
    (¬ badOpcode 0xD0000006 ∧ ¬ badBits 0xD0000006 ∧ ¬ badField 0xD0000006) := by
  unfold badOpcode badBits badField; decide
/-- OpcodeTableRowsDecode, and the encoding clause of each command's statement: a word for each row. -/
theorem witness_table_rows : (0x10FFFFFF : Word) &&& 0xFF000000 = 0x10000000 ∧
    (0x20800000 : Word) &&& 0xFF000000 = 0x20000000 ∧ (0x30FFF001 : Word) &&& 0xFF000000 = 0x30000000 ∧
    (0x60FFFF34 : Word) &&& 0xFF000000 = 0x60000000 ∧ (0x700000FF : Word) &&& 0xFFFFFF00 = 0x70000000 ∧
    (0x8000FF30 : Word) &&& 0xFFFF0000 = 0x80000000 ∧ (0xA0000000 : Word) &&& 0xFFFFFF00 = 0xA0000000 ∧
    (0xB0800000 : Word) &&& 0xFF000000 = 0xB0000000 ∧ (0xD0000004 : Word) &&& 0xFFFFFFFB = 0xD0000000 ∧
    (0xD0000001 : Word) &&& 0xFFFFFFFB = 0xD0000001 ∧ (0xD0000006 : Word) &&& 0xFFFFFFFB = 0xD0000002 := by decide
/-- StepRunsDecodedCommand, first clause, and the idle clause of CmdWriteIsHeldWhileBusy. -/
theorem witness_command_ready : (hostTurn red (.write .word 0 0xE0000000)).turns = .host :: [] ∧
    (hostTurn red (.write .word 0 0xE0000000)).bus =
      .write .word (hostTurn red (.write .word 0 0xE0000000)).cfg.base 0xE0000000 :: [] ∧
    (hostTurn red (.write .word 0 0xE0000000)).serState = .idle ∧ decode 0xE0000000 = .ok .transmit :=
  ⟨rfl, rfl, rfl, rfl⟩
/-- StepRunsDecodedCommand, second clause. -/
theorem witness_table_word_ready : State.reset.serState = .idle ∧ decodeTableWord 32 0x90000001 = some .vstr := by decide
/-- IllegalWordOnlySetsErr: the same ready state with a word of each illegal class. -/
theorem witness_illegal_ready : (hostTurn red (.write .word 0 0)).turns = .host :: [] ∧
    (hostTurn red (.write .word 0 0)).bus = .write .word (hostTurn red (.write .word 0 0)).cfg.base 0 :: [] ∧
    (hostTurn red (.write .word 0 0)).serState = .idle ∧ badOpcode 0 ∧ badBits 0x2FFFFFFF ∧ badField 0x90000003 := by
  unfold badOpcode badBits badField; decide
/-- CmdWriteIsHeldWhileBusy: a held write, and a step that makes a busy block idle. -/
theorem witness_held : (hostTurn { red with serState := .wait } (.write .word 0 0)).turns = .host :: [] ∧
    (hostTurn { red with serState := .wait } (.write .word 0 0)).bus = .write .word red.cfg.base 0 :: [] ∧
    (hostTurn { red with serState := .wait } (.write .word 0 0)).serState ≠ .idle ∧
    (after (step { st 1 1 with serState := .send, serK := 239, latchCnt := 0 })).serState = .idle ∧
    isNext (step { st 1 1 with serState := .send, serK := 239, latchCnt := 0 }) = true := by decide
/-- OnlyCmdWritesHaveSideEffects and the read-only clauses of StatusRegisterFields, RegisterReads and WindowReads: the
lowest and the highest admitted offset, with a read and with a write pending on the host's turn. -/
theorem witness_admitted : admitted red.cfg .word 0 0 ∧ admitted red.cfg .word 0xFFFC 0xFFFC ∧
    (hostTurn red (.read .word 0xFFFC)).turns = .host :: [] ∧
    (hostTurn red (.read .word 0xFFFC)).bus = .read .word (red.cfg.base + 0xFFFC) :: [] ∧
    (hostTurn red (.write .word 0xFFFC 7)).bus = .write .word (red.cfg.base + 0xFFFC) 7 :: [] ∧
    (hostTurn red (.write .word 4 7)).bus = .write .word (red.cfg.base + 4) 7 :: [] := by
  unfold admitted; decide
/-- UnadmittedAccessIsRefused: an access at the window's end that is refused and one that is not. -/
theorem witness_window_edge : isNext (step (hostTurn red (.read .word 0xFFFC))) = true ∧
    refusal (step (hostTurn red (.write .word 0x10000 1))) = some .accessOutsideWindow := by decide
/-- RegisterReads, StepKeepsInvariant, EveryHoldIsLifted, LatchTimerChanges: a busy state that meets the invariant. -/
theorem witness_inv_busy : State.Inv { st 1 1 with serState := .send, serK := 239, latchCnt := 0, dout := false } := by
  decide
/-- WindowReads: the last offsets of each window and the first ones past them. -/
theorem witness_window_offsets : readReg (withText red (List.replicate 16 0x39)) 0x13C = 0x39 ∧
    readReg (withText red (List.replicate 16 0x39)) 0x140 = 0 ∧ readReg { red with fb := [(79, 5)] } 0x113C = 5 ∧
    readReg red 0x4FFC = 0 ∧ readReg red 0x5000 = 0 ∧ readReg red 0x024 = 0 ∧ readReg red 0x0FC = 0 ∧
    readReg red 0xFFC = 0 := by decide +kernel
/-- ResetStepFromAnyState: a state in mid-frame with the reset input's turn. -/
theorem witness_reset_turn : ({ red with serState := .send, serK := 9, dout := true, turns := [.reset, .slot] } : State).turns =
    .reset :: [.slot] := rfl
/-- BootRefusesBadConfigurations: a configuration on each side, and the largest matrix; each bad one of
`test_wf_config` breaks one clause. -/
theorem witness_boot : ¬ (Config.test 4096 1).Wf ∧ (Config.test 16 5).Wf ∧ (Config.test 64 64).Wf := by decide
/-- StepKeepsInvariant, ConfigurationNeverChanges, LatchTimerChanges: the state of `witness_inv_busy` takes a step. -/
theorem witness_inv_step : isNext (step { st 1 1 with serState := .send, serK := 239, latchCnt := 0 }) = true := by decide
/-- OnlyHostAccessesStop: a state in which another agent moves, and a refused access. -/
theorem witness_not_host : mover red ≠ .host ∧ refusal (step (hostTurn red (.read .half 0))) = some .accessWidth := by decide
/-- CommandsWriteOnlyTheirItems, OutcomeCodesByCommand: commands that change each item and report each code. -/
theorem witness_commands_write : (after (exec (.setcolor 1 1 1) red)).color ≠ red.color ∧
    (after (exec (.gwidth 0x30) red)).result ≠ red.result ∧ (after (exec (.drawg 0 0x30) red)).found ≠ red.found ∧
    (after (exec .canr (withText red []))).canr ≠ red.canr ∧ (after (exec .transmit red)).serState ≠ red.serState ∧
    (after (exec .vstr red)).vkind ≠ red.vkind ∧ (after (exec (.vpush 0x30) red)).text ≠ red.text ∧
    (after (exec (.vint 1) red)).vint ≠ red.vint ∧ (after (exec .fill (st 1 1))).fb = (st 1 1).fb ∧
    (after (exec (.set 0) red)).fb ≠ red.fb ∧ (after (exec (.drawv false .left) red)).err = .unrenderable ∧
    (after (exec (.vpush 0) { red with vkind := .str, tlen := 16 })).err = .textOvf := by decide +kernel
/-- SlotClockFrame. -/
theorem witness_slot_moves : mover { red with serState := .wait } = .slot := by decide
/-- BusyFreezesTheFramebuffer: a busy block that takes a host's step. -/
theorem witness_busy_host : isNext (step (hostTurn { red with serState := .wait } (.read .word 4))) = true ∧
    mover (hostTurn { red with serState := .wait } (.read .word 4)) ≠ .reset := by decide
/-- The framebuffer and renderer statements: a framebuffer in canonical form with an entry at each end. -/
theorem witness_fb_wf : Memory.wf red.cfg.pixels [(0, 1), (79, 0xFFFFFF)] := by decide
/-- SetWritesOneEntry and SetxyWritesLinearIndex, at both ends of the range and just outside it. -/
theorem witness_set_range : (after (exec (.set 0) red)).fb = [(0, 0x000300)] ∧
    (after (exec (.set 79) red)).fb = [(79, 0x000300)] ∧ (after (exec (.setxy 15 4) red)).fb = [(79, 0x000300)] ∧
    (after (exec (.setxy 16 (-1)) red)).fb = [(0, 0x000300)] ∧ (after (exec (.setxy 16 4) red)).fb = [] := by decide
/-- GlyphWidthIsHighestBit, GwidthReportsWidth, GrowReportsRow: a legal configuration and a code on each side. -/
theorem witness_font : red.cfg.Wf ∧ (0x30 : Byte) ∈ supportedCodes ∧ (0x2F : Byte) ∉ supportedCodes ∧
    (4 : Byte).toNat < red.cfg.fontHeight ∧ red.cfg.fontHeight ≤ (5 : Byte).toNat := by decide
/-- DrawgPaintsLitPixels: an entry that is lit. -/
theorem witness_lit : litAt red.cfg 0x31 0 1 :=
  ⟨by decide, [1, 3, 1, 1, 1], by decide, 0, 1, by decide, by decide, by decide, by decide⟩
/-- DrawgPaintsLitPixels: an entry that is not lit, since no glyph is painted at a negative column. -/
theorem witness_not_lit : ¬ litAt red.cfg 0x31 (-1) 1 := fun h => absurd h.1 (by decide)
/-- VpushAppendsOrOverflows: a value of each of the three cases, at both ends of the buffer. -/
theorem witness_vpush : red.valueOk ∧ red.vkind ≠ .str ∧ (withText red (List.replicate 15 0x30)).valueOk ∧
    (withText red (List.replicate 15 0x30)).tlen < 16 ∧ (withText red (List.replicate 16 0x30)).valueOk ∧
    (withText red (List.replicate 16 0x30)).tlen = 16 := by decide
/-- VintLoadsImmediate. -/
theorem witness_vint : (Instr.vint (-8388608)).WellFormed := by decide
/-- CanrComputesCanRender, DrawvPaintsTheString: renderable values, the empty string among them; ValueStringIsDecimal. -/
theorem witness_renderable : renderable (withText red []) ∧ renderable (withText red [0x3A, 0x28]) ∧
    renderable { red with vkind := .int, vint := 49 } := by
  unfold renderable; decide
/-- DrawvRejectsUnrenderable: no value, and a string with an unsupported character. -/
theorem witness_unrenderable : ¬ renderable red ∧ ¬ renderable (withText red [0x34, 0x41]) := by
  unfold renderable; decide
/-- DrawvPaintsTheString: a renderable value and a framebuffer in canonical form together, and a word of its encoding. -/
theorem witness_drawv : renderable (withText { red with fb := [(79, 5)] } [0x3A, 0x28]) ∧
    Memory.wf 80 (withText { red with fb := [(79, 5)] } [0x3A, 0x28]).fb ∧
    (0xD0000006 : Word) &&& 0xFFFFFFF8 = 0xD0000000 ∧ low2 0xD0000006 = 2 := by
  unfold renderable; decide
/-- DrawvPaintsTheString: an entry lit by the second glyph of ":(" drawn from column 6 (V-L2). -/
theorem witness_lit_string : litInString red.cfg [0x3A, 0x28] 6 24 :=
  ⟨1, 0x28, rfl, by decide, [1, 2, 2, 2, 1], by decide, 1, 0, by decide, by decide, by decide, by decide⟩
/-- StartColumnByAlignment: a string exactly as wide as the matrix, and one that overflows. -/
theorem witness_start : startX red.cfg .center 16 = 0 ∧ startX red.cfg .center 11 = 3 ∧ ((16 : Int) - 11) % 2 = 1 ∧
    startX red.cfg .center 19 = -3 ∧ startX red.cfg .right 19 = -3 := by decide
/-- DrawingOnlyAddsPixels: both commands answer a next state from a framebuffer in canonical form. -/
theorem witness_drawing : Memory.wf red.cfg.pixels red.fb ∧ isNext (exec (.drawg 0 0x30) red) = true ∧ isNext (exec (.drawv true .left) red) = true := by
  decide
/-- LeftOverflowSkipsWholeGlyphs: a skipped first glyph and a painted second one (V-L3). -/
theorem witness_left_overflow : columnOf (Config.test 8 5) [0x38, 0x38, 0x38] (-3) 0 = -3 ∧
    columnOf (Config.test 8 5) [0x38, 0x38, 0x38] (-3) 1 = 1 ∧
    (paintString (Config.test 8 5) 1 [0x38, 0x38, 0x38] (-3) []).read 1 = 1 := by decide +kernel
/-- StaleTextIsNeverRead: two buffers that differ past `TLEN` only. -/
theorem witness_stale_text : (withText red [0x31]).valueOk ∧
    (withText red [0x31, 0x41]).text.toList.take 1 = (withText red [0x31]).text.toList.take 1 ∧
    (withText red [0x31, 0x41]).text ≠ (withText red [0x31]).text := by decide
/-- SlotStepByState: a state of each clause. -/
theorem witness_slot_states : (st 1 1).serState = .idle ∧ 0 < (st 1 1).latchCnt ∧
    ({ st 1 1 with serState := .send, serK := 239 } : State).serK + 1 = 240 * (1 * 1) ∧
    ({ st 1 1 with serState := .send, serK := 238 } : State).serK + 1 ≠ 240 * (1 * 1) := by decide
/-- FrameOnTheWire, AllBlackFrame: a waiting state with the settling interval over, and one with settling slots left. -/
theorem witness_waiting : (Config.test 1 1).Wf ∧ ({ st 1 1 with serState := .wait, latchCnt := 0 } : State).latchCnt = 0 ∧
    ({ st 1 1 with serState := .wait } : State).latchCnt = 80000 ∧ (∀ i, i < 1 → (st 1 1).fb.read i = 0) := by decide
/-- SettlingIntervalIsKept: a frame that starts, and a settling slot. -/
theorem witness_settling : (after (step { red with serState := .wait, latchCnt := 0 })).serState = .send ∧
    ({ red with serState := .wait, latchCnt := 0 } : State).serState ≠ .send ∧ mover red = .slot ∧ 0 < red.latchCnt := by
  decide
/-- LatchTimerChanges: a step of each clause. -/
theorem witness_latch_changes : (after (step red)).latchCnt = 79999 ∧ red.Inv ∧
    (after (step { st 1 1 with serState := .send, serK := 239, latchCnt := 0 })).latchCnt = 80000 ∧
    (after (step { red with latchCnt := 5, turns := [.reset] })).latchCnt = 80000 := by decide
/-- EveryRunEnds: a command and a read pending in a state that meets the invariant, with turns listed. -/
theorem witness_run : State.Inv { red with bus := [.write .word 0 0xE0000000, .read .word 4], turns := [.slot, .reset] } ∧
    admitted red.cfg (accessPlace (.write .word 0 0xE0000000)).1 (accessPlace (.write .word 0 0xE0000000)).2 0 ∧
    admitted red.cfg (accessPlace (.read .word 4)).1 (accessPlace (.read .word 4)).2 4 := by
  unfold admitted; decide
/-- LookupFindsSupportedCodes: the first and the last code of the table, and the glyphs they find. -/
theorem witness_lookup : supportedCodes[0]? = some 0x30 ∧ supportedCodes[14]? = some 0x29 ∧
    lookup red.cfg 0x29 = some [2, 1, 1, 1, 2] ∧ lookup red.cfg 0x2D = some [0, 0, 7, 0, 0] := by decide
/-- TransmitAfterResetWaits. -/
theorem witness_after_reset : (Config.test 1 1).Wf := by decide
/-- FrameAmongHostSteps: a run of a settling slot, a host's read and another slot from `WAIT`. -/
def waiting : State :=
  { st 1 1 with serState := .wait, turns := [.slot, .host, .slot], bus := [.read .word 4] }
theorem witness_among_host_steps : waiting.cfg.Wf ∧ .reset ∉ waiting.turns ∧
    isNext (Host.Core.run Sys2Proof.core 3 waiting) = true ∧ runWire 3 waiting = [false, false] := by decide
/-- RunOfCommandSequence: an idle block, and a sequence with a transmission between two other commands. -/
theorem witness_sequence : State.Inv { st 1 1 with latchCnt := 3 } ∧ (st 1 1).serState = .idle ∧ (st 1 1).turns = [] ∧
    (st 1 1).bus = [] ∧
    ((runOf { st 1 1 with latchCnt := 3 } [0x100000FF, 0x20000000, 0xE0000000, 0x50000000]).2).length = 243 := by
  decide +kernel
/-- AssembledWordsAreCommands: a line that assembles to words, and one whose command is not well-formed. -/
theorem witness_assembled : assembleLine "pxy 2047, -2048, 3, 0, 255".toList = some [0x100003FF, 0x307FF800] ∧
    assembleParts "vint".toList [.word "8388608".toList] = some [.vint 8388608] ∧
    assembleLine "vint 8388608".toList = none := by
  decide +kernel
/-- AssemblerFollowsSyntax: operands at both ends of their ranges and past them, in both bases. -/
theorem witness_operand_texts : isIntText "-8388608".toList (-8388608) ∧ isIntText "0x7fffff".toList 8388607 ∧
    isIntText "256".toList 256 ∧ isCharText "':'".toList 0x3A ∧ isCharText "0xff".toList 255 :=
  ⟨⟨false, by decide +kernel⟩, ⟨true, by decide +kernel⟩, ⟨false, by decide +kernel⟩,
    .inr ⟨':', by decide, by decide, by decide⟩, .inl ⟨true, by decide +kernel⟩⟩
/-- PseudoInstructionsExpand: operands in range. -/
theorem witness_pseudo_range : pseudoInRange (.pxy 2047 (-2048) 0 0 255) ∧ pseudoInRange (.drawi 8388607 1 1 1 none none) := by
  unfold pseudoInRange; decide
/-- PseudoInstructionsExpand: strings on each side of the buffer's capacity. -/
theorem witness_pseudo_text : (List.replicate 16 (0x30 : Byte)).length ≤ 16 ∧
    (Pseudo.text (List.replicate 17 0x30)).expand = none := by decide

end Sys2Proof.Tests
end

section
/-! Proofs of the statements of 00_scope.md: which configurations are admitted (R7, R8) and what the slot clock's step
changes (R9). -/

namespace Sys2Proof.Machine

open Sys2Proof.Spec

/-! ### Building the block -/

/-- The 15 codes of R90 take the places of the font in their order. -/
theorem map_fontSlot_supportedCodes : supportedCodes.map fontSlot = (List.finRange fontChars).map some := by decide

/-- Looking up the 15 codes in their order gives the whole font. -/
theorem map_lookup_supportedCodes (c : Config) : supportedCodes.map (lookup c) = c.font.toList.map some := by
  have hfont : c.font.toList = (List.finRange fontChars).map fun k => c.font[k] := by
    apply List.ext_getElem <;> simp
  calc supportedCodes.map (lookup c)
      = (supportedCodes.map fontSlot).map (Option.map fun k => c.font[k]) := by simp [lookup]
    _ = c.font.toList.map some := by simp [map_fontSlot_supportedCodes, hfont]

/-- Every supported character has a glyph with property `P` exactly when every glyph of the font has it. -/
theorem forall_lookup_iff_forall_font (c : Config) (P : List Nat → Prop) :
    (∀ ch ∈ supportedCodes, ∃ rows, lookup c ch = some rows ∧ P rows) ↔ ∀ g ∈ c.font.toList, P g := by
  calc (∀ ch ∈ supportedCodes, ∃ rows, lookup c ch = some rows ∧ P rows)
      ↔ ∀ o ∈ supportedCodes.map (lookup c), ∃ rows, o = some rows ∧ P rows := by
        rw [List.forall_mem_map]
    _ ↔ ∀ g ∈ c.font.toList, P g := by
        rw [map_lookup_supportedCodes, List.forall_mem_map]
        simp only [Option.some.injEq, exists_eq_left']

/-- A legal configuration is admitted. -/
theorem State.boot_of_wf {c : Config} (h : c.Wf) : State.boot c = .next (State.resetOf c) := if_pos h

/-- Any other configuration is refused. -/
theorem State.boot_of_not_wf {c : Config} (h : ¬ c.Wf) : State.boot c = .refused .badConfig := if_neg h

/-- `boot` answers the reset state for legal configurations only (R8, R186). -/
theorem State.boot_eq_next_iff (c : Config) : State.boot c = .next (State.resetOf c) ↔ c.Wf := by
  refine ⟨fun h => ?_, State.boot_of_wf⟩
  by_contra hc
  rw [State.boot_of_not_wf hc] at h
  cases h

/-- The reset state of a legal configuration meets the invariant: the framebuffer is empty, the value register is clear,
and the serializer is idle with the line LOW. -/
theorem State.resetOf_inv {c : Config} (h : c.Wf) : (State.resetOf c).Inv := by
  have hvalue : (State.resetOf c).valueOk :=
    ⟨Nat.zero_le _, fun _ => rfl, by simp [State.resetOf], by simp [State.resetOf]⟩
  have hrest : (State.resetOf c).restOk := fun _ => ⟨rfl, fun _ => rfl⟩
  have hsend : (State.resetOf c).sendOk := fun hs => nomatch hs
  exact ⟨h, Memory.wf_nil _, hvalue, Nat.le_refl _, hrest, hsend⟩

/-- Settles O15: `boot` tests `Config.Wf`, whose clause over the font is the one over the supported characters. -/
theorem bootRefusesBadConfigurations : Obligations.BootRefusesBadConfigurations := by
  refine ⟨rfl, fun c => ⟨?_, ?_⟩⟩
  · by_cases h : c.Wf
    · exact .inr ⟨State.boot_of_wf h, State.resetOf_inv h⟩
    · exact .inl (State.boot_of_not_wf h)
  · rw [State.boot_eq_next_iff, forall_lookup_iff_forall_font,
      @and_comm (c.base % 0x10000 = 0) (c.pinClaimable = true)]
    rfl

/-! ### The slot clock's turn -/

/-- A slot step leaves the list of turns alone. -/
@[simp] theorem slotStep_turns (s : State) : (slotStep s).turns = s.turns := by rw [slotStep_eq]

/-- At the slot clock's turn the machine makes a slot step and the turn is used up. -/
theorem step_of_mover_slot {s : State} (h : mover s = .slot) : step s = .next (slotStep s).popTurn := by
  rw [step, h, ← slotStep_popTurn]
  rfl

/-- Settles O21, by the frame of the slot step. -/
theorem slotClockFrame : Obligations.SlotClockFrame := by
  intro s h
  refine ⟨(slotStep s).popTurn, step_of_mover_slot h, ?_, ?_⟩
  · rw [State.popTurn, slotStep_turns]
  · exact congrArg State.popTurn (slotStep_eq s)

end Sys2Proof.Machine
end

section
/-! Proofs of the statements of 10_state.md: what a command writes and what it never reads (R20, R33), the invariant of the
machine's states, and the register map (R37 to R48). -/

namespace Sys2Proof

/-! ### Decoded operands are in range -/

/-- A two's-complement field is in its range (R11). -/
theorem fitsSigned_toInt {n : Nat} (x : BitVec n) : fitsSigned n x.toInt :=
  ⟨x.le_toInt, Int.le_sub_one_of_lt x.toInt_lt⟩

/-- A command that passes the check of reserved bits is the one that was checked (R83). -/
theorem eq_ok_of_reservedZero {w : Word} {lo len : Nat} {r : Except Illegal Instr} {i : Instr}
    (h : reservedZero w lo len r = .ok i) : r = .ok i := by
  unfold reservedZero at h
  split at h
  · exact h
  · cases h

/-- Opcode 0x9 selects commands without operands. -/
theorem wellFormed_of_kindCommand {k : BitVec 2} {i : Instr} (h : kindCommand k = .ok i) : i.WellFormed := by
  unfold kindCommand at h
  split at h
  · cases h; rfl
  · split at h <;> cases h
    rfl

/-- What decodes carries operands in the ranges of R87: each signed one is read from a field of its width.
`split` numbers the cases by their opcodes. -/
theorem wellFormed_of_decode {w : Word} {i : Instr} (h : decode w = .ok i) : i.WellFormed := by
  unfold decode at h
  split at h
  case h_2 | h_11 => cases eq_ok_of_reservedZero h; exact decide_eq_true (fitsSigned_toInt (wordField w 0 24))
  case h_3 =>
    cases eq_ok_of_reservedZero h
    exact decide_eq_true ⟨fitsSigned_toInt (wordField w 12 12), fitsSigned_toInt (wordField w 0 12)⟩
  case h_6 => cases eq_ok_of_reservedZero h; exact decide_eq_true (fitsSigned_toInt (wordField w 8 16))
  case h_9 => exact wellFormed_of_kindCommand (eq_ok_of_reservedZero h)
  case h_13 =>
    have hmap := eq_ok_of_reservedZero h
    cases halign : alignField (wordField w 0 2) <;> rw [halign] at hmap <;> cases hmap
    rfl
  case h_15 => cases h
  all_goals cases eq_ok_of_reservedZero h; rfl

end Sys2Proof

namespace Sys2Proof.Machine

open Sys2Proof.Spec

/-! ### The commands that branch -/

/-- `DRAWG` reports in `FOUND` whether the character has a glyph, and paints it if so (R121). -/
theorem execDrawg_eq (x : Int) (c : Byte) (s : State) :
    execDrawg x c s = .next (({ s with found := supported c }.withFb
      (if supported c then paintGlyph s.cfg c x s.color s.fb else s.fb)).finish .none) := by
  unfold execDrawg
  cases supported c <;> rfl

/-- `DRAWV` reports in `CANR` and `ERR` whether the value can be rendered, and paints its string if so. The empty string
is no case of its own, since it paints nothing (R133). -/
theorem execDrawv_eq (sign : Bool) (align : Align) (s : State) :
    execDrawv sign align s = .next (({ s with canr := canRender s }.withFb
      (if canRender s then
        paintString s.cfg s.color (strOf s sign) (startX s.cfg align (totalWidth s.cfg (strOf s sign))) s.fb
       else s.fb)).finish (if canRender s then .none else .unrenderable)) := by
  unfold execDrawv
  by_cases hr : canRender s = true
  · simp only [if_pos hr]
    cases hstr : strOf s sign <;> rfl
  · simp only [if_neg hr]
    rfl

/-- `VPUSH` on a value that is no string starts a new one (R125). -/
theorem execVpush_new {s : State} (h : s.vkind ≠ .str) (c : Byte) :
    execVpush c s = .next ((s.pushChar 0 c).finish .none) := if_pos h

/-- `VPUSH` on a full string only reports the overflow (R125). -/
theorem execVpush_full {s : State} (h : s.vkind = .str) (hl : s.tlen = textMax) (c : Byte) :
    execVpush c s = .next (s.finish .textOvf) := by
  rw [execVpush, if_neg (not_not.2 h), if_pos hl]

/-- `VPUSH` on any other string appends to it (R125). -/
theorem execVpush_append {s : State} (h : s.vkind = .str) (hl : s.tlen ≠ textMax) (c : Byte) :
    execVpush c s = .next ((s.pushChar s.tlen c).finish .none) := by
  rw [execVpush, if_neg (not_not.2 h), if_neg hl]

/-- With a legal value register `VPUSH` is one rule for every kind of value: the character goes to position `TLEN` unless
the buffer is full. -/
theorem execVpush_of_valueOk {s : State} (h : s.valueOk) (c : Byte) :
    execVpush c s = if s.tlen = textMax then .next (s.finish .textOvf)
      else .next ((s.pushChar s.tlen c).finish .none) := by
  obtain ⟨-, hkind, -⟩ := h
  by_cases hs : s.vkind = .str
  · split
    · exact execVpush_full hs ‹_› c
    · exact execVpush_append hs ‹_› c
  · rw [execVpush_new hs, hkind hs]
    rfl

/-! ### What each command writes -/

/-- Between `s` and `t` only items changed that R20's table gives the command `i`. -/
structure WritesOnlyItsItems (i : Instr) (s t : State) : Prop where
  color      : t.color ≠ s.color → writesColor i
  result     : t.result ≠ s.result → writesResult i
  found      : t.found ≠ s.found → writesFound i
  canr       : t.canr ≠ s.canr → writesCanr i
  serializer : t.serState ≠ s.serState ∨ t.serK ≠ s.serK → writesSerializer i
  vkindTlen  : t.vkind ≠ s.vkind ∨ t.tlen ≠ s.tlen → writesVkindTlen i
  text       : t.text ≠ s.text → writesText i
  vint       : t.vint ≠ s.vint → writesVint i
  fb         : t.fb ≠ s.fb → writesFb i
  latchCnt   : t.latchCnt = s.latchCnt
  dout       : t.dout = s.dout
  cfg        : t.cfg = s.cfg
  bus        : t.bus = s.bus
  turns      : t.turns = s.turns
  reads      : t.reads = s.reads

/-- Nothing changed. -/
theorem WritesOnlyItsItems.refl (i : Instr) (s : State) : WritesOnlyItsItems i s s where
  color h := absurd rfl h
  result h := absurd rfl h
  found h := absurd rfl h
  canr h := absurd rfl h
  serializer h := absurd h (by simp)
  vkindTlen h := absurd h (by simp)
  text h := absurd rfl h
  vint h := absurd rfl h
  fb h := absurd rfl h
  latchCnt := rfl
  dout := rfl
  cfg := rfl
  bus := rfl
  turns := rfl
  reads := rfl

/-- Command by command, the items of R20's table that it may change; `ERR` is every command's. -/
theorem exec_writesOnlyItsItems {i : Instr} {s t : State} (h : exec i s = .next t) : WritesOnlyItsItems i s t := by
  have same := WritesOnlyItsItems.refl i s
  cases i with
  | setcolor g r b => cases h; exact { same with color := fun _ => trivial }
  | set _ | setxy _ _ | fill | clear => cases h; exact { same with fb := fun _ => trivial }
  | drawg x c =>
    cases (execDrawg_eq x c s).symm.trans h
    exact { same with found := fun _ => trivial, fb := fun _ => trivial }
  | gwidth _ | grow _ _ => cases h; exact { same with result := fun _ => trivial, found := fun _ => trivial }
  | vnone | vint _ => cases h; exact { same with vkindTlen := fun _ => trivial, vint := fun _ => trivial }
  | vstr => cases h; exact { same with vkindTlen := fun _ => trivial }
  | vpush c =>
    by_cases hs : s.vkind = .str
    · by_cases hl : s.tlen = textMax
      · cases (execVpush_full hs hl c).symm.trans h
        exact { same with }
      · cases (execVpush_append hs hl c).symm.trans h
        exact { same with vkindTlen := fun _ => trivial, text := fun _ => trivial }
    · cases (execVpush_new hs c).symm.trans h
      exact { same with vkindTlen := fun _ => trivial, text := fun _ => trivial }
  | canr => cases h; exact { same with canr := fun _ => trivial }
  | drawv sign align =>
    cases (execDrawv_eq sign align s).symm.trans h
    exact { same with canr := fun _ => trivial, fb := fun _ => trivial }
  | transmit => cases h; exact { same with serializer := fun _ => trivial }

/-- Settles O20, command by command. -/
theorem commandsWriteOnlyTheirItems : Obligations.CommandsWriteOnlyTheirItems := by
  intro i s t h
  have w := exec_writesOnlyItsItems h
  exact ⟨w.color, w.result, w.found, w.canr, w.serializer, w.vkindTlen, w.text, w.vint, w.fb, w.latchCnt, w.dout,
    w.cfg, w.bus, w.turns, w.reads⟩

/-! ### The invariant of the machine's states -/

/-- Settles O16: `State.reset` is the reset state of a legal configuration. -/
theorem invariantAtReset : Obligations.InvariantAtReset := State.resetOf_inv (by decide)

/-- Every command keeps the framebuffer in canonical form: all its writes are bounds-checked (R103). -/
theorem exec_keeps_fb_wf {i : Instr} {s t : State} (hm : Memory.wf s.cfg.pixels s.fb) (h : exec i s = .next t) :
    Memory.wf s.cfg.pixels t.fb := by
  have hfb := (exec_writesOnlyItsItems h).fb
  cases i with
  | set idx => cases h; exact wf_fbset hm idx s.color
  | setxy x y => cases h; exact wf_fbset hm (linearIndex s.cfg x y) s.color
  | fill => cases h; exact Memory.wf_filled _ s.color
  | clear => cases h; exact Memory.wf_filled _ (packColor 0 0 0)
  | drawg x c =>
    cases (execDrawg_eq x c s).symm.trans h
    dsimp only [State.finish_fb, State.withFb_fb]
    split
    · exact (paints_paintGlyph hm c x s.color).1
    · exact hm
  | drawv sign align =>
    cases (execDrawv_eq sign align s).symm.trans h
    dsimp only [State.finish_fb, State.withFb_fb]
    split
    · exact (paints_paintString s.color _ _ hm).1
    · exact hm
  | _ => rwa [show t.fb = s.fb from not_not.1 hfb]

/-- The integer that a 24-bit immediate loads is the immediate (R126). -/
theorem toInt_ofInt_of_fitsSigned {v : Int} (h : fitsSigned 24 v) : (BitVec.ofInt 32 v).toInt = v :=
  BitVec.toInt_ofInt_eq_self (by decide) (by omega) (by omega)

/-- Every command with operands in range keeps the value register legal (R33, R34). -/
theorem exec_keeps_valueOk {i : Instr} {s t : State} (hi : i.WellFormed) (hv : s.valueOk) (h : exec i s = .next t) :
    t.valueOk := by
  have w := exec_writesOnlyItsItems h
  obtain ⟨hlen, hkind, hint⟩ := id hv
  cases i with
  | vnone => cases h; exact ⟨Nat.zero_le _, fun _ => rfl, by simp⟩
  | vstr => cases h; exact ⟨Nat.zero_le _, fun _ => rfl, hint⟩
  | vint imm =>
    cases h
    have hrange : fitsSigned 24 imm := of_decide_eq_true hi
    refine ⟨Nat.zero_le _, fun _ => rfl, ?_⟩
    dsimp only [State.finish_vint]
    rwa [toInt_ofInt_of_fitsSigned hrange]
  | vpush c =>
    have hpush := (execVpush_of_valueOk hv c).symm.trans h
    split at hpush
    · cases hpush; exact hv
    · cases hpush
      have hroom : s.tlen + 1 ≤ textMax := Nat.lt_of_le_of_ne hlen ‹_›
      exact ⟨hroom, fun hs => absurd rfl hs, hint⟩
  | _ =>
    obtain ⟨hk, hl⟩ : t.vkind = s.vkind ∧ t.tlen = s.tlen := by simpa [writesVkindTlen] using w.vkindTlen
    have hvint : t.vint = s.vint := not_not.1 w.vint
    rwa [State.valueOk, hk, hl, hvint]

/-- A command leaves the serializer of an idle block out of a frame, with no slot index: only `TRANSMIT` touches it. -/
theorem exec_keeps_rest {i : Instr} {s t : State} (hs : s.serState = .idle) (hk : s.serK = 0) (h : exec i s = .next t) :
    t.serState ≠ .send ∧ t.serK = 0 := by
  have hser := (exec_writesOnlyItsItems h).serializer
  cases i with
  | transmit => cases h; exact ⟨nofun, rfl⟩
  | _ =>
    obtain ⟨h1, h2⟩ : t.serState = s.serState ∧ t.serK = s.serK := by simpa [writesSerializer] using hser
    rw [h1, h2, hs]
    exact ⟨nofun, hk⟩

/-- A command that an idle block executes keeps the invariant. -/
theorem exec_keeps_inv {i : Instr} {s t : State} (hi : i.WellFormed) (hinv : s.Inv) (hs : s.serState = .idle)
    (h : exec i s = .next t) : t.Inv := by
  obtain ⟨hcfg, hfb, hvalue, hlatch, hrest, -⟩ := hinv
  obtain ⟨hk, hline⟩ := hrest (by simp [hs])
  obtain ⟨hsend', hk'⟩ := exec_keeps_rest hs hk h
  have w := exec_writesOnlyItsItems h
  refine ⟨?_, ?_, exec_keeps_valueOk hi hvalue h, ?_, fun _ => ⟨hk', ?_⟩, fun hs' => absurd hs' hsend'⟩
  · rwa [w.cfg]
  · rw [w.cfg]; exact exec_keeps_fb_wf hfb h
  · rwa [w.latchCnt]
  · rwa [w.latchCnt, w.dout]

/-- So does an accepted word, which is such a command or only reports `E_ILLEGAL`. -/
theorem acceptCommand_keeps_inv {w : Word} {s t : State} (hinv : s.Inv) (hs : s.serState = .idle)
    (h : acceptCommand w s = .next t) : t.Inv := by
  rcases acceptCommand_cases w s with ⟨i, hi, he⟩ | ⟨-, he⟩
  · exact exec_keeps_inv (wellFormed_of_decode hi) hinv hs (he.symm.trans h)
  · cases he.symm.trans h
    exact hinv

/-- A block that is not busy is idle. -/
theorem busy_eq_false_iff {s : State} : busy s = false ↔ s.serState = .idle := by simp [busy]

/-- A host step keeps the invariant: the host's side is not part of it. -/
theorem hostStep_keeps_inv {s t : State} (hinv : s.Inv) (h : hostStep s = .next t) : t.Inv := by
  rcases hostStep_next_cases h with rfl | ⟨off, rfl⟩ | rfl | ⟨w, hb, hw⟩
  · exact hinv
  · exact hinv
  · exact hinv
  · exact acceptCommand_keeps_inv (s := s.popBus) hinv (busy_eq_false_iff.1 hb) hw

/-- A slot outside a frame puts the line LOW and counts the settling interval down (R157, R158). -/
theorem inv_settling {s : State} (hinv : s.Inv) (hs : s.serState ≠ .send) :
    State.Inv { s with dout := false, latchCnt := s.latchCnt - 1 } := by
  obtain ⟨hcfg, hfb, hvalue, hlatch, hrest, -⟩ := hinv
  exact ⟨hcfg, hfb, hvalue, Nat.le_trans (Nat.sub_le ..) hlatch, fun h => ⟨(hrest h).1, fun _ => rfl⟩,
    fun h => absurd h hs⟩

/-- A slot of a frame, the first one among them, keeps the invariant: either a slot of the frame is left and the line
carries the one before it, or the frame is over and the settling interval starts (R159, R160). -/
theorem slotStep_send_inv {s : State} (hcfg : s.cfg.Wf) (hfb : Memory.wf s.cfg.pixels s.fb) (hvalue : s.valueOk)
    (hs : s.serState = .send) (hlatch : s.latchCnt = 0) (hk : s.serK < frameSlots s.cfg) : (slotStep s).Inv := by
  by_cases hlast : s.serK + 1 = frameSlots s.cfg
  · rw [slotStep_last hs hlast]
    exact ⟨hcfg, hfb, hvalue, Nat.le_refl _, fun _ => ⟨rfl, fun h => absurd h (Nat.lt_irrefl _)⟩, nofun⟩
  · rw [slotStep_send hs hlast]
    have hnext : 1 ≤ s.serK + 1 ∧ s.serK + 1 < frameSlots s.cfg := by omega
    exact ⟨hcfg, hfb, hvalue, Nat.le_trans hlatch.le (Nat.zero_le _), fun h => absurd hs h,
      fun _ => ⟨hnext, hlatch, rfl⟩⟩

/-- The frame of a legal configuration is not empty. -/
theorem frameSlots_pos {c : Config} (h : c.Wf) : 0 < frameSlots c := by
  obtain ⟨⟨hw, -⟩, ⟨hh, -⟩, -⟩ := h
  exact Nat.mul_pos (by decide) (Nat.mul_pos hw hh)

/-- A slot step keeps the invariant, in each state of the serializer. -/
theorem slotStep_keeps_inv {s : State} (hinv : s.Inv) : (slotStep s).Inv := by
  obtain ⟨hcfg, hfb, hvalue, hlatch, hrest, hsend⟩ := id hinv
  cases hs : s.serState with
  | idle =>
    have hidle : slotStep s = slotIdle s := by rw [slotStep, hs]
    rw [hidle]
    exact inv_settling hinv (by simp [hs])
  | wait =>
    rcases Nat.eq_zero_or_pos s.latchCnt with hl | hl
    · rw [slotStep_start hs hl]
      exact slotStep_send_inv hcfg hfb hvalue rfl hl (frameSlots_pos hcfg)
    · have hne : s.serState ≠ .send := by simp [hs]
      rw [slotStep_settling hne hl]
      exact inv_settling hinv hne
  | send =>
    obtain ⟨⟨-, hk⟩, hl, -⟩ := hsend hs
    exact slotStep_send_inv hcfg hfb hvalue hs hl hk

/-- Settles O17, agent by agent: the invariant does not speak of the schedule, and reset leads to the reset state of the
same configuration. -/
theorem stepKeepsInvariant : Obligations.StepKeepsInvariant := by
  intro s t hinv h
  have hpop : s.popTurn.Inv := hinv
  rcases step_next_cases h with ⟨-, rfl⟩ | ⟨-, rfl⟩ | ⟨-, hh⟩
  · exact slotStep_keeps_inv hpop
  · exact State.resetOf_inv hpop.1
  · exact hostStep_keeps_inv hpop hh

/-! ### Stale text -/

/-- `CANR`'s value depends on the string's characters, not on the whole text buffer (R128). -/
theorem canRender_withText {s : State} {v : Vector Byte textMax}
    (hv : v.toList.take s.tlen = s.text.toList.take s.tlen) :
    canRender { s with text := v } = canRender s := by
  have hchars : textChars { s with text := v } = textChars s := hv
  rw [canRender, hchars, canRender]

/-- So does the value's string (R127). -/
theorem strOf_withText {s : State} {v : Vector Byte textMax} (hv : v.toList.take s.tlen = s.text.toList.take s.tlen)
    (sign : Bool) : strOf { s with text := v } sign = strOf s sign := by
  have hchars : textChars { s with text := v } = textChars s := hv
  rw [strOf, hchars, strOf]

/-- A command that does not write the text buffer carries stale entries along and does the same for the rest. -/
theorem exec_withText {i : Instr} (hi : ¬ writesText i) {s t : State} {v : Vector Byte textMax}
    (hv : v.toList.take s.tlen = s.text.toList.take s.tlen) (h : exec i s = .next t) :
    exec i { s with text := v } = .next { t with text := v } := by
  cases i with
  | drawg x c =>
    cases (execDrawg_eq x c s).symm.trans h
    exact execDrawg_eq x c { s with text := v }
  | vpush c => exact absurd trivial hi
  | canr =>
    cases h
    rw [exec, execCanr, canRender_withText hv]
    rfl
  | drawv sign align =>
    cases (execDrawv_eq sign align s).symm.trans h
    rw [exec, execDrawv_eq, canRender_withText hv, strOf_withText hv]
    rfl
  | _ => cases h; rfl

/-- Such a command keeps the length of the string or ends it. -/
theorem exec_tlen {i : Instr} (hi : ¬ writesText i) {s t : State} (h : exec i s = .next t) :
    t.tlen = s.tlen ∨ t.tlen = 0 := by
  have htlen := (exec_writesOnlyItsItems h).vkindTlen
  cases i with
  | vnone | vstr | vint _ => cases h; exact .inr rfl
  | vpush c => exact absurd trivial hi
  | _ => exact .inl (not_not.1 fun hne => htlen (.inr hne))

/-- Two buffers that agree below `n` still do after both were written at `n`, and then at `n` too. -/
theorem take_setIfInBounds {v w : Vector Byte textMax} {n : Nat} (hn : n < textMax) (c : Byte)
    (h : v.toList.take n = w.toList.take n) :
    (v.setIfInBounds n c).toList.take (n + 1) = (w.setIfInBounds n c).toList.take (n + 1) := by
  have written : ∀ u : Vector Byte textMax, (u.setIfInBounds n c).toList.take (n + 1) = u.toList.take n ++ [c] :=
    fun u => by simp [List.take_add_one, List.take_set_of_le, hn]
  rw [written, written, h]

/-- Settles O46: only `VPUSH` writes the buffer, and it writes the entry that the new `TLEN` uncovers. -/
theorem staleTextIsNeverRead : Obligations.StaleTextIsNeverRead := by
  intro i s t v hok hv h
  by_cases hi : writesText i
  · obtain ⟨c, rfl⟩ : ∃ c, i = .vpush c := by cases i <;> simp_all [writesText]
    have hrun : execVpush c s = .next t := h
    rw [exec, execVpush_of_valueOk (s := { s with text := v }) hok]
    rw [execVpush_of_valueOk hok] at hrun
    by_cases hfull : s.tlen = textMax
    · rw [if_pos hfull] at hrun ⊢
      cases hrun
      exact ⟨_, rfl, rfl, hv⟩
    · rw [if_neg hfull] at hrun ⊢
      cases hrun
      exact ⟨_, rfl, rfl, take_setIfInBounds (Nat.lt_of_le_of_ne hok.1 hfull) c hv⟩
  · have htext : t.text = s.text := not_not.1 fun hne => hi ((exec_writesOnlyItsItems h).text hne)
    refine ⟨_, exec_withText hi hv h, rfl, ?_⟩
    change v.toList.take t.tlen = t.text.toList.take t.tlen
    rw [htext]
    rcases exec_tlen hi h with hl | hl
    · rw [hl, hv]
    · rw [hl, List.take_zero, List.take_zero]

/-! ### Host accesses -/

/-- The window admits every aligned 32-bit access (R51). -/
theorem windowOffset_base_add (c : Config) {off : Nat} (h4 : off % 4 = 0) (hlt : off < windowBytes) :
    windowOffset c .word (c.base + off) = .ok off :=
  windowOffset_ok_iff.2 ⟨rfl, by omega, by omega, by omega, by omega⟩

/-- An admitted read answers the register's word (R55). -/
theorem hostStep_read {s : State} {width : Width} {addr off : Nat} {rest : List Access}
    (hb : s.bus = .read width addr :: rest) (ho : windowOffset s.cfg width addr = .ok off) :
    hostStep s = .next { s with bus := rest, reads := readReg s off :: s.reads } := by
  simp [hostStep, State.popBus, hb, ho]

/-- An admitted write that is not to `CMD` is ignored (R54). -/
theorem hostStep_write_ignored {s : State} {width : Width} {addr off : Nat} {v : Word} {rest : List Access}
    (hb : s.bus = .write width addr v :: rest) (ho : windowOffset s.cfg width addr = .ok off) (hne : off ≠ cmdOffset) :
    hostStep s = .next { s with bus := rest } := by
  simp [hostStep, State.popBus, hb, ho, hne]

/-- An idle block accepts a `CMD` write (R38, R56). -/
theorem hostStep_cmd {s : State} {w : Word} {rest : List Access} (hb : s.bus = .write .word s.cfg.base w :: rest)
    (hs : s.serState = .idle) : hostStep s = acceptCommand w { s with bus := rest } := by
  have ho : windowOffset s.cfg .word s.cfg.base = .ok cmdOffset :=
    windowOffset_base_add s.cfg (off := cmdOffset) rfl (by decide)
  simp [hostStep, State.popBus, hb, ho, busy_eq_false_iff.2 hs]

/-- Every aligned offset of the window but `CMD`'s is read-only (R54, R55). -/
theorem readOnlyAt_of_ne_cmd {off : Nat} (h4 : off % 4 = 0) (hlt : off < windowBytes) (hne : off ≠ cmdOffset) :
    readOnlyAt off := by
  intro s ts rest ht
  have ho := windowOffset_base_add s.cfg h4 hlt
  rw [step_of_turn ht]
  exact ⟨fun hb => hostStep_read (s := { s with turns := ts }) hb ho,
    fun v hb => hostStep_write_ignored (s := { s with turns := ts }) hb ho hne⟩

/-- A word that decodes runs its command (R38). -/
theorem acceptCommand_of_decode {w : Word} {i : Instr} (h : decode w = .ok i) (s : State) :
    acceptCommand w s = exec i s := by
  rw [acceptCommand, h]

/-- The table's decoder is the word's decoder. -/
theorem decode_of_decodeTableWord {n w : Nat} {i : Instr} (h : decodeTableWord n w = some i) :
    decode (tableWord n w) = .ok i := by
  unfold decodeTableWord at h
  split at h
  · cases h; assumption
  · cases h

/-- On the host's turn an idle block executes the command at the head of the bus (R38). -/
theorem step_of_cmdWrite {s : State} {ts : List Turn} {rest : List Access} {w : Word} {i : Instr}
    (ht : s.turns = .host :: ts) (hb : s.bus = .write .word s.cfg.base w :: rest) (hs : s.serState = .idle)
    (hw : decode w = .ok i) : step s = exec i { s with turns := ts, bus := rest } := by
  rw [step_of_turn ht, ← acceptCommand_of_decode hw]
  exact hostStep_cmd (s := { s with turns := ts }) hb hs

/-- Settles O5: `withFetchWord` sets up such a step. -/
theorem stepRunsDecodedCommand : Obligations.StepRunsDecodedCommand :=
  ⟨fun _ _ _ _ _ => step_of_cmdWrite, fun s _ _ hs hw =>
    step_of_cmdWrite (s := s.withFetchWord 32 _) rfl rfl hs (decode_of_decodeTableWord hw)⟩

/-! ### The register map -/

/-- `BUSY` as a number (R26). -/
theorem busy_toNat (s : State) : (busy s).toNat = if s.serState = .idle then 0 else 1 := by
  by_cases h : s.serState = .idle <;> simp [busy, h]

/-- `LATCH` as a number (R29). -/
theorem latch_toNat (s : State) : (latch s).toNat = if s.latchCnt = 0 then 0 else 1 := by
  by_cases h : s.latchCnt = 0 <;> simp [latch, h]

/-- The fields of `STATUS` as a sum (R39). -/
theorem statusWord_toNat (s : State) :
    (statusWord s).toNat = (busy s).toNat + 2 * (latch s).toNat + 4 * s.found.toNat + 8 * s.canr.toNat +
      16 * (errBits s.err).toNat + 256 * s.dout.toNat := by
  rw [statusWord, toNat_concat, toNat_concat, toNat_concat, toNat_concat, toNat_concat, toNat_concat]
  simp only [BitVec.toNat_ofBool, BitVec.toNat_ofNat]
  omega

/-- Settles O10: the sum, with the code of each outcome. -/
theorem statusRegisterFields : Obligations.StatusRegisterFields := by
  refine ⟨readOnlyAt_of_ne_cmd rfl (by decide) (by decide), fun s => ?_⟩
  rw [show readReg s 0x004 = statusWord s from rfl, statusWord_toNat, busy_toNat, latch_toNat]
  cases s.err <;> rfl

/-- A field below 0s reads as a number alone. -/
theorem toNat_zero_concat {n : Nat} (m : Nat) (x : BitVec n) : (0#m ++ x).toNat = x.toNat := by
  rw [toNat_concat]
  simp

/-- The fields of `CONFIG` as a sum (R42). -/
theorem configWord_toNat {s : State} (h : s.cfg.Wf) :
    (configWord s).toNat = s.cfg.width + 2 ^ 12 * s.cfg.height + 2 ^ 24 * s.cfg.fontHeight := by
  obtain ⟨⟨-, hw⟩, ⟨-, hh⟩, -, ⟨-, hf⟩, -⟩ := h
  rw [configWord, toNat_concat, toNat_concat, toNat_concat]
  simp only [BitVec.toNat_ofNat]
  omega

/-- The fields of `VALSTAT` as a sum (R43). -/
theorem valstatWord_toNat {s : State} (h : s.valueOk) :
    (valstatWord s).toNat = (vkindBits s.vkind).toNat + 2 ^ 8 * s.tlen := by
  have hlen : s.tlen ≤ 16 := h.1
  rw [valstatWord, toNat_concat, toNat_concat, toNat_concat]
  simp only [BitVec.toNat_ofNat]
  omega

/-- The slot index of a legal state fits its field of `SER`: a frame has at most `240 * 4096` slots. -/
theorem serK_lt {s : State} (h : s.Inv) : s.serK < 2 ^ 24 := by
  obtain ⟨⟨-, -, hn, -⟩, -, -, -, hrest, hsend⟩ := h
  by_cases hs : s.serState = .send
  · obtain ⟨⟨-, hk⟩, -⟩ := hsend hs
    calc s.serK < 240 * s.cfg.pixels := hk
      _ ≤ 240 * 4096 := Nat.mul_le_mul_left 240 hn
      _ ≤ 2 ^ 24 := by decide
  · rw [(hrest hs).1]
    decide

/-- The fields of `SER` as a sum (R45). -/
theorem serWord_toNat {s : State} (h : s.Inv) :
    (serWord s).toNat = (serStateBits s.serState).toNat + 2 ^ 8 * s.serK := by
  have hk := serK_lt h
  rw [serWord, toNat_concat, toNat_concat]
  simp only [BitVec.toNat_ofNat]
  omega

/-- `LATCHCNT` reads the count (R46). -/
theorem latchWord_toNat {s : State} (h : s.latchCnt ≤ latchSlots) : (latchWord s).toNat = s.latchCnt := by
  rw [latchWord, BitVec.toNat_ofNat, Nat.mod_eq_of_lt (Nat.lt_of_le_of_lt h (by decide))]

/-- A host step leaves the configuration alone. -/
theorem hostStep_cfg {s t : State} (h : hostStep s = .next t) : t.cfg = s.cfg := by
  rcases hostStep_next_cases h with rfl | ⟨off, rfl⟩ | rfl | ⟨w, -, hw⟩
  · rfl
  · rfl
  · rfl
  · rcases acceptCommand_cases w s.popBus with ⟨i, -, he⟩ | ⟨-, he⟩
    · exact (exec_writesOnlyItsItems (he.symm.trans hw)).cfg
    · cases he.symm.trans hw
      rfl

/-- No step changes the configuration (R36, R110). -/
theorem step_cfg {s t : State} (h : step s = .next t) : t.cfg = s.cfg := by
  rcases step_next_cases h with ⟨-, rfl⟩ | ⟨-, rfl⟩ | ⟨-, hh⟩
  · rw [slotStep_eq, State.popTurn_cfg]
  · rfl
  · exact hostStep_cfg (s := s.popTurn) hh

/-- Settles O11, register by register. -/
theorem registerReads : Obligations.RegisterReads := by
  refine ⟨fun off hoff => ?_, fun s t h => ?_, fun s hinv => ?_⟩
  · have hreg : off % 4 = 0 ∧ off < windowBytes ∧ off ≠ cmdOffset := by
      revert off
      decide
    obtain ⟨h4, hlt, hne⟩ := hreg
    exact readOnlyAt_of_ne_cmd h4 hlt hne
  · change configWord t = configWord s
    rw [configWord, configWord, step_cfg h]
  · obtain ⟨hcfg, -, hvalue, hlatch, -⟩ := id hinv
    refine ⟨rfl, toNat_zero_concat 8 s.color, configWord_toNat hcfg, ?_, rfl, ?_, latchWord_toNat hlatch⟩
    · rw [show readReg s 0x014 = valstatWord s from rfl, valstatWord_toNat hvalue]
      cases s.vkind <;> rfl
    · rw [show readReg s 0x01C = serWord s from rfl, serWord_toNat hinv]
      cases s.serState <;> rfl

/-! ### The windows -/

/-- The offsets of the text window (R47). -/
theorem readReg_text (s : State) {k : Nat} (hk : k < 16) : readReg s (0x100 + 4 * k) = textWord s k := by
  have hidx : (0x100 + 4 * k - 0x100) / 4 = k := by omega
  unfold readReg textMax fbMax
  iterate 8 rw [if_neg (by omega)]
  rw [if_pos (by omega), hidx]

/-- The offsets of the framebuffer window (R48). -/
theorem readReg_fb (s : State) {i : Nat} (hi : i < 4096) : readReg s (0x1000 + 4 * i) = fbWord s i := by
  have hidx : (0x1000 + 4 * i - 0x1000) / 4 = i := by omega
  unfold readReg textMax fbMax
  iterate 9 rw [if_neg (by omega)]
  rw [if_pos (by omega), hidx]

/-- Past the registers and outside both windows nothing is mapped (R53). -/
theorem readReg_unmapped (s : State) {off : Nat} (h0 : 0x020 < off) (ht : ¬ (0x100 ≤ off ∧ off < 0x140))
    (hf : ¬ (0x1000 ≤ off ∧ off < 0x5000)) : readReg s off = 0 := by
  unfold readReg textMax fbMax
  iterate 8 rw [if_neg (by omega)]
  rw [if_neg ht, if_neg hf]

/-- `TEXTk` reads a character of the string, and 0 past its end (R47). -/
theorem textWord_toNat (s : State) (k : Nat) :
    (textWord s k).toNat = if k < s.tlen then (s.text.getD k 0).toNat else 0 := by
  unfold textWord
  split
  · exact toNat_zero_concat 24 _
  · rfl

/-- `FBi` reads an entry of the framebuffer, and 0 past its end (R48). -/
theorem fbWord_toNat (s : State) (i : Nat) :
    (fbWord s i).toNat = if i < s.cfg.pixels then (s.fb.read i).toNat else 0 := by
  unfold fbWord
  split
  · exact toNat_zero_concat 8 _
  · rfl

/-- Settles O12, window by window. -/
theorem windowReads : Obligations.WindowReads := by
  refine ⟨fun off h4 h0 hlt => readOnlyAt_of_ne_cmd h4 hlt (by unfold cmdOffset; omega), fun s => ⟨?_, ?_, ?_⟩⟩
  · intro k hk
    rw [readReg_text s hk, textWord_toNat]
  · intro i hi
    rw [readReg_fb s hi, fbWord_toNat]
  · intro off _ h
    exact readReg_unmapped s (by omega) (by omega) (by omega)

end Sys2Proof.Machine
end

section
/-! Proofs of the statements of 20_memory.md: which host accesses are admitted and what they do (R51 to R56), the hold on
`CMD` while the block is busy and what it protects (R56, R61), and the frame on the wire with host steps between its slots
(R60, R214). -/

namespace Sys2Proof.Machine

open Sys2Proof.Spec

/-! ### Admitted accesses -/

/-- `windowOffset` answers exactly the offsets at which R51 admits the access. -/
theorem windowOffset_eq_ok_iff_admitted {c : Config} {width : Width} {addr off : Nat} :
    windowOffset c width addr = .ok off ↔ admitted c width addr off := by
  rw [windowOffset_ok_iff, admitted, windowBytes]
  constructor
  · rintro ⟨hwidth, hlow, hhigh, halign, rfl⟩
    exact ⟨hwidth, by omega, halign, by omega⟩
  · rintro ⟨hwidth, rfl, halign, hoff⟩
    exact ⟨hwidth, by omega, by omega, by omega, by omega⟩

/-- Every command completes: `exec` answers a next state (R180). -/
theorem exec_next (i : Instr) (s : State) : ∃ t, exec i s = .next t := by
  cases i with
  | drawg x c => exact ⟨_, execDrawg_eq x c s⟩
  | vpush c =>
    by_cases hs : s.vkind = .str
    · by_cases hl : s.tlen = textMax
      · exact ⟨_, execVpush_full hs hl c⟩
      · exact ⟨_, execVpush_append hs hl c⟩
    · exact ⟨_, execVpush_new hs c⟩
  | drawv sign align => exact ⟨_, execDrawv_eq sign align s⟩
  | _ => exact ⟨_, rfl⟩

/-- So does every accepted word, and it leaves the bus as it was. -/
theorem acceptCommand_next (w : Word) (s : State) : ∃ t, acceptCommand w s = .next t ∧ t.bus = s.bus := by
  rcases acceptCommand_cases w s with ⟨i, -, he⟩ | ⟨-, he⟩
  · obtain ⟨t, ht⟩ := exec_next i s
    exact ⟨t, he.trans ht, (exec_writesOnlyItsItems ht).bus⟩
  · exact ⟨_, he, rfl⟩

/-- A block is busy outside `IDLE` (R26). -/
theorem busy_eq_true_iff {s : State} : busy s = true ↔ s.serState ≠ .idle := by simp [busy]

/-- A busy block holds a `CMD` write: the access stays on the bus and nothing changes (R56). -/
theorem hostStep_held {s : State} {w : Word} {rest : List Access} (hb : s.bus = .write .word s.cfg.base w :: rest)
    (hs : s.serState ≠ .idle) : hostStep s = .next s := by
  have ho : windowOffset s.cfg .word s.cfg.base = .ok cmdOffset :=
    windowOffset_base_add s.cfg (off := cmdOffset) rfl (by decide)
  simp [hostStep, hb, ho, busy_eq_true_iff.2 hs]

/-- The host's step refuses an access that has no offset in the window (R51). -/
theorem hostStep_of_error {s : State} {a : Access} {rest : List Access} {r : Refusal} (hb : s.bus = a :: rest)
    (hr : windowOffset s.cfg (accessPlace a).1 (accessPlace a).2 = .error r) : hostStep s = .refused r := by
  cases a with
  | read width addr => simp only [hostStep, hb, show windowOffset s.cfg width addr = .error r from hr]
  | write width addr v => simp only [hostStep, hb, show windowOffset s.cfg width addr = .error r from hr]

/-- The host's step answers a next state for every other access: a read, a held or an accepted command, or an ignored
write. -/
theorem hostStep_of_ok {s : State} {a : Access} {rest : List Access} {off : Nat} (hb : s.bus = a :: rest)
    (ho : windowOffset s.cfg (accessPlace a).1 (accessPlace a).2 = .ok off) : ∃ t, hostStep s = .next t := by
  cases a with
  | read width addr => exact ⟨_, hostStep_read hb ho⟩
  | write width addr v =>
    by_cases hcmd : off = cmdOffset
    · subst hcmd
      obtain ⟨rfl, rfl, -⟩ : admitted s.cfg width addr cmdOffset := windowOffset_eq_ok_iff_admitted.1 ho
      by_cases hs : s.serState = .idle
      · obtain ⟨t, ht, -⟩ := acceptCommand_next v { s with bus := rest }
        exact ⟨t, (hostStep_cmd hb hs).trans ht⟩
      · exact ⟨s, hostStep_held hb hs⟩
    · exact ⟨_, hostStep_write_ignored hb ho hcmd⟩

/-- The host's step refuses its access exactly when the window gives it no offset. -/
theorem hostStep_refused_iff {s : State} {a : Access} {rest : List Access} (hb : s.bus = a :: rest) :
    (∃ r, hostStep s = .refused r) ↔ ¬ ∃ off, windowOffset s.cfg (accessPlace a).1 (accessPlace a).2 = .ok off := by
  cases ho : windowOffset s.cfg (accessPlace a).1 (accessPlace a).2 with
  | error r => simp [hostStep_of_error hb ho]
  | ok off =>
    obtain ⟨t, ht⟩ := hostStep_of_ok hb ho
    simp [ht]

/-- Settles O9: the host's step refuses what has no offset in the window. -/
theorem unadmittedAccessIsRefused : Obligations.UnadmittedAccessIsRefused := by
  intro s ts a rest ht hb
  have hrefused := hostStep_refused_iff (s := { s with turns := ts }) hb
  simp only [windowOffset_eq_ok_iff_admitted] at hrefused
  rw [step_of_turn ht]
  exact hrefused

/-- Settles O8: admitted reads and ignored writes only use up the turn and the access. -/
theorem onlyCmdWritesHaveSideEffects : Obligations.OnlyCmdWritesHaveSideEffects := by
  refine ⟨fun s ts rest width addr off ht hb ha => ?_, fun s => rfl, fun s ts rest width addr off v ht hb ha hne => ?_⟩
  · have ho : windowOffset s.cfg width addr = .ok off := windowOffset_eq_ok_iff_admitted.2 ha
    exact ⟨_, (step_of_turn ht).trans (hostStep_read (s := { s with turns := ts }) hb ho), rfl, fun off' => rfl⟩
  · have ho : windowOffset s.cfg width addr = .ok off := windowOffset_eq_ok_iff_admitted.2 ha
    rw [step_of_turn ht]
    exact hostStep_write_ignored (s := { s with turns := ts }) hb ho hne

/-! ### A busy block -/

/-- `s` and `t` differ at most on the host's side and in the schedule: every item of the block is the same. -/
def SameBlock (s t : State) : Prop := ∃ b ts rs, t = { s with bus := b, turns := ts, reads := rs }

/-- While `BUSY = 1` the host's step changes no item of the block (R56, R61). -/
theorem sameBlock_of_hostStep {s t : State} (hs : busy s = true) (h : hostStep s = .next t) : SameBlock s t := by
  rcases hostStep_next_cases h with rfl | ⟨off, rfl⟩ | rfl | ⟨w, hidle, -⟩
  · exact ⟨_, _, _, rfl⟩
  · exact ⟨_, _, _, rfl⟩
  · exact ⟨_, _, _, rfl⟩
  · rw [hs] at hidle
    cases hidle

/-- A step of a busy block that is not reset's is a slot step, or changes no item of the block. -/
theorem step_cases_of_busy {s t : State} (h : step s = .next t) (hs : busy s = true) (hr : mover s ≠ .reset) :
    (mover s = .slot ∧ t = (slotStep s).popTurn) ∨ (mover s = .host ∧ SameBlock s t) := by
  rcases step_next_cases h with ⟨hm, rfl⟩ | ⟨hm, -⟩ | ⟨hm, hh⟩
  · exact .inl ⟨hm, slotStep_popTurn s⟩
  · exact absurd hm hr
  · obtain ⟨b, ts, rs, rfl⟩ := sameBlock_of_hostStep (s := s.popTurn) hs hh
    exact .inr ⟨hm, b, ts, rs, rfl⟩

/-- Settles O7: of the agents only the slot clock and reset change the serializer of a busy block. -/
theorem cmdWriteIsHeldWhileBusy : Obligations.CmdWriteIsHeldWhileBusy := by
  refine ⟨fun s ts rest w ht hb hs => ?_, fun s ts rest w ht hb hs => ?_, fun s t h hs hidle => ?_⟩
  · exact ⟨_, (step_of_turn ht).trans (hostStep_held (s := { s with turns := ts }) hb hs), rfl, rfl⟩
  · obtain ⟨t, hw, hbus⟩ := acceptCommand_next w { s with turns := ts, bus := rest }
    exact ⟨t, ((step_of_turn ht).trans (hostStep_cmd (s := { s with turns := ts }) hb hs)).trans hw, hbus⟩
  · by_cases hr : mover s = .reset
    · exact .inl hr
    · rcases step_cases_of_busy h (busy_eq_true_iff.2 hs) hr with ⟨hm, rfl⟩ | ⟨-, b, us, rs, rfl⟩
      · refine .inr ⟨hm, ?_⟩
        rw [State.popTurn, slotStep_turns]
      · exact absurd hidle hs

/-- Settles O22: a slot step writes no item that commands write, and the host's step no item at all. -/
theorem busyFreezesTheFramebuffer : Obligations.BusyFreezesTheFramebuffer := by
  intro s t h hs hr
  rcases step_cases_of_busy h (busy_eq_true_iff.2 hs) hr with ⟨-, rfl⟩ | ⟨-, b, ts, rs, rfl⟩
  · rw [slotStep_eq]
    exact ⟨rfl, rfl, rfl, rfl, rfl, rfl, rfl, rfl, rfl, rfl⟩
  · exact ⟨rfl, rfl, rfl, rfl, rfl, rfl, rfl, rfl, rfl, rfl⟩

/-! ### The levels of a frame -/

/-- A range of blocks of `n` slots, block by block. -/
theorem map_range_mul {α : Type} (f : Nat → α) (n m : Nat) :
    (List.range (n * m)).map f = (List.range m).flatMap fun i => (List.range n).map fun j => f (n * i + j) := by
  induction m with
  | zero => simp
  | succ m ih => simp [Nat.mul_succ, List.range_add, List.range_succ, List.flatMap_append, ih]

/-- The ten levels of one bit (R151 to R153). -/
theorem map_bitLevel_range (bit : Bool) : (List.range bitSlots).map (bitLevel bit) = bitPattern bit := by
  cases bit <;> rfl

/-- The level of slot `k` of bit `b` of pixel `p`, the most significant bit being bit 0 (R154). -/
theorem frameLevel_of_slot (m : Memory) (p : Nat) {b k : Nat} (hb : b < 24) (hk : k < 10) :
    frameLevel m (240 * p + (10 * b + k)) = bitLevel ((m.read p).getLsbD (23 - b)) k := by
  have hpixel : (240 * p + (10 * b + k)) / 240 = p := by omega
  have hbit : (240 * p + (10 * b + k)) % 240 / 10 = b := by omega
  have hslot : (240 * p + (10 * b + k)) % 10 = k := by omega
  change bitLevel ((m.read (_ / 240)).getLsbD (23 - _ % 240 / 10)) (_ % 10) = _
  rw [hpixel, hbit, hslot]

/-- The levels of all slots of a frame, in order, are its pattern (R154, R155). -/
theorem map_frameLevel_range (n : Nat) (m : Memory) :
    (List.range (240 * n)).map (frameLevel m) = framePattern n m := by
  rw [map_range_mul, framePattern]
  refine List.flatMap_congr fun p _ => ?_
  rw [show 240 = 10 * 24 from rfl, map_range_mul]
  refine List.flatMap_congr fun b hb => ?_
  rw [← map_bitLevel_range]
  refine List.map_congr_left fun k hk => ?_
  exact frameLevel_of_slot m p (List.mem_range.1 hb) (List.mem_range.1 hk)

/-! ### The slots of a wait and its frame -/

/-- The length of a wire output is the number of its slots. -/
@[simp] theorem length_wire (n : Nat) (s : State) : (wire n s).length = n := by simp [wire_eq_map]

/-- In `SEND` each slot puts its level on the line, the last one too (R159). -/
theorem slotStep_dout_of_send {s : State} (hs : s.serState = .send) :
    (slotStep s).dout = frameLevel s.fb s.serK := by
  by_cases hk : s.serK + 1 = frameSlots s.cfg
  · rw [slotStep_last hs hk]
  · rw [slotStep_send hs hk]

/-- Before the last slot of a frame the block is still sending. -/
theorem serState_slotSteps_send {s : State} (hs : s.serState = .send) {n : Nat} (hn : s.serK + n < frameSlots s.cfg) :
    (slotSteps n s).serState = .send := by
  rw [slotSteps_send hs n hn]
  exact hs

/-- From the first slot of a frame the slot steps put the framebuffer on the wire. -/
theorem wire_of_send {s : State} (hs : s.serState = .send) (hk : s.serK = 0) :
    wire (240 * s.cfg.pixels) s = framePattern s.cfg.pixels s.fb := by
  rw [wire_eq_map, ← map_frameLevel_range]
  refine List.map_congr_left fun i hi => ?_
  have hlt : s.serK + i < frameSlots s.cfg := by rw [hk, Nat.zero_add]; exact List.mem_range.1 hi
  rw [slotSteps_succ, slotStep_dout_of_send (serState_slotSteps_send hs hlt), slotSteps_send hs i hlt]
  simp [hk]

/-- The state after the settling slots that are left: the last of them, if there was one, left the line LOW. -/
def State.settled (s : State) : State := { s with dout := if s.latchCnt = 0 then s.dout else false, latchCnt := 0 }

/-- The settling slots lead there (R157, R158). -/
theorem slotSteps_latchCnt {s : State} (hs : s.serState ≠ .send) : slotSteps s.latchCnt s = s.settled := by
  rw [slotSteps_settling hs _ (Nat.le_refl _), Nat.sub_self, State.settled]

/-- The state in which the first slot of a frame goes out (R158). -/
def State.startFrame (s : State) : State := { s with serState := .send, serK := 0 }

/-- Once the settling interval is over, slot steps from `WAIT` are those of the frame. -/
theorem slotSteps_startFrame {s : State} (hs : s.serState = .wait) (hl : s.latchCnt = 0) (n : Nat) :
    slotSteps (n + 1) s = slotSteps (n + 1) s.startFrame := by
  rw [slotSteps, slotSteps, slotStep_start hs hl, State.startFrame]

/-- So is their wire output. -/
theorem wire_startFrame {s : State} (hs : s.serState = .wait) (hl : s.latchCnt = 0) (n : Nat) :
    wire n s = wire n s.startFrame := by
  cases n with
  | zero => rfl
  | succ n => rw [wire, wire, slotStep_start hs hl, State.startFrame]

/-- The line is LOW in every settling slot (R158, R160). -/
theorem wire_settling {s : State} (hs : s.serState ≠ .send) {n : Nat} (hn : n ≤ s.latchCnt) :
    wire n s = List.replicate n false := by
  rw [wire_eq_map]
  refine List.eq_replicate_iff.2 ⟨by simp, fun b hb => ?_⟩
  obtain ⟨i, hi, rfl⟩ := List.mem_map.1 hb
  rw [slotSteps_settling hs (i + 1) (Nat.le_trans (List.mem_range.1 hi) hn)]
  rfl

/-- From `WAIT` the wire is LOW for the settling slots that are left, and then carries the frame (R158 to R160). -/
theorem wire_of_wait {s : State} (hs : s.serState = .wait) :
    wire (s.latchCnt + 240 * s.cfg.pixels) s =
      List.replicate s.latchCnt false ++ framePattern s.cfg.pixels s.fb := by
  have hne : s.serState ≠ .send := by simp [hs]
  rw [wire_add, wire_settling hne (Nat.le_refl _), slotSteps_latchCnt hne,
    wire_startFrame (s := s.settled) hs rfl]
  exact congrArg _ (wire_of_send (s := s.settled.startFrame) rfl rfl)

/-- The block is busy until the last slot of the frame (R59, R160). -/
theorem busy_slotSteps_of_wait {s : State} (hs : s.serState = .wait) {m : Nat}
    (hm : m < s.latchCnt + 240 * s.cfg.pixels) : busy (slotSteps m s) = true := by
  have hne : s.serState ≠ .send := by simp [hs]
  rw [busy_eq_true_iff]
  rcases Nat.le_total m s.latchCnt with hle | hle
  · rw [slotSteps_settling hne m hle]
    simp [hs]
  · obtain ⟨j, rfl⟩ := Nat.exists_eq_add_of_le hle
    rw [slotSteps_add, slotSteps_latchCnt hne]
    cases j with
    | zero => exact fun hidle => nomatch hs.symm.trans hidle
    | succ j =>
      rw [slotSteps_startFrame (s := s.settled) hs rfl, serState_slotSteps_send rfl]
      · nofun
      · exact (Nat.zero_add _).trans_lt (Nat.add_lt_add_iff_left.1 hm)

/-! ### Runs with host steps between the slots -/

/-- A state has the same block as itself. -/
theorem SameBlock.refl (s : State) : SameBlock s s := ⟨_, _, _, rfl⟩

/-- What two changes of the host's side leave alone. -/
theorem SameBlock.trans {s t u : State} (h : SameBlock s t) (h' : SameBlock t u) : SameBlock s u := by
  obtain ⟨b, ts, rs, rfl⟩ := h
  obtain ⟨b', ts', rs', rfl⟩ := h'
  exact ⟨b', ts', rs', rfl⟩

/-- Slot steps do not look at the host's side. -/
theorem SameBlock.slotSteps {s t : State} (h : SameBlock s t) (n : Nat) :
    SameBlock (slotSteps n s) (slotSteps n t) := by
  induction n generalizing s t with
  | zero => exact h
  | succ n ih =>
    obtain ⟨b, ts, rs, rfl⟩ := h
    exact ih ⟨b, ts, rs, slotStep_hostSide s b ts rs⟩

/-- So the same block puts the same levels on the wire. -/
theorem SameBlock.wire_eq {s t : State} (h : SameBlock s t) (n : Nat) : wire n t = wire n s := by
  rw [wire_eq_map, wire_eq_map]
  refine List.map_congr_left fun i _ => ?_
  obtain ⟨b, ts, rs, he⟩ := h.slotSteps (i + 1)
  rw [he]

/-- It is busy alike. -/
theorem SameBlock.busy_eq {s t : State} (h : SameBlock s t) : busy t = busy s := by
  obtain ⟨b, ts, rs, rfl⟩ := h
  rfl

/-- A turn taken is none of the block's items. -/
theorem sameBlock_popTurn (s : State) : SameBlock s s.popTurn := ⟨_, _, _, rfl⟩

/-- The host's step does not change the list of turns. -/
theorem hostStep_turns {s t : State} (h : hostStep s = .next t) : t.turns = s.turns := by
  rcases hostStep_next_cases h with rfl | ⟨off, rfl⟩ | rfl | ⟨w, -, hw⟩
  · rfl
  · rfl
  · rfl
  · rcases acceptCommand_cases w s.popBus with ⟨i, -, he⟩ | ⟨-, he⟩
    · exact (exec_writesOnlyItsItems (he.symm.trans hw)).turns
    · cases he.symm.trans hw
      rfl

/-- Every step takes the first listed turn. -/
theorem step_turns {s t : State} (h : step s = .next t) : t.turns = s.turns.tail := by
  rcases step_next_cases h with ⟨-, rfl⟩ | ⟨-, rfl⟩ | ⟨-, hh⟩
  · exact slotStep_turns s.popTurn
  · rfl
  · exact hostStep_turns hh

/-- As long as the slot clock alone would keep the block busy for `k` slots, a run without reset and with no more than
`k` slot steps puts the same levels on the wire as the slot clock alone. With fewer than `k` of them it also ends with the
block as the slot clock alone would leave it: the steps of the host between the slots do not touch it (R60, R61). -/
theorem runWire_of_busy {n k : Nat} {s t : State} (hr : .reset ∉ s.turns)
    (hrun : Host.Core.run Sys2Proof.core n s = .next t) (hbusy : ∀ m, m < k → busy (slotSteps m s) = true)
    (hlen : (runWire n s).length ≤ k) :
    runWire n s = wire (runWire n s).length s ∧
      ((runWire n s).length < k → SameBlock (slotSteps (runWire n s).length s) t) := by
  induction n generalizing s k with
  | zero =>
    cases hrun
    exact ⟨rfl, fun _ => SameBlock.refl t⟩
  | succ n ih =>
    obtain ⟨u, hstep, hrun⟩ := (run_succ_iff n s t).1 hrun
    have hr' : .reset ∉ u.turns := by
      rw [step_turns hstep]
      exact fun h => hr (List.mem_of_mem_tail h)
    cases k with
    | zero =>
      rw [List.length_eq_zero_iff.1 (Nat.le_zero.1 hlen)]
      exact ⟨rfl, nofun⟩
    | succ k =>
      rcases step_cases_of_busy hstep (hbusy 0 k.succ_pos) (fun h => hr (reset_mem_of_mover h)) with
        ⟨hm, rfl⟩ | ⟨hm, hsame⟩
      · have hpop := sameBlock_popTurn (slotStep s)
        rw [runWire_slot hstep hm, List.length_cons] at hlen ⊢
        obtain ⟨hwire, hend⟩ := ih (k := k) hr' hrun
          (fun m hm => (hpop.slotSteps m).busy_eq.trans (hbusy (m + 1) (Nat.succ_lt_succ hm)))
          (Nat.le_of_succ_le_succ hlen)
        refine ⟨?_, fun hlt => (hpop.slotSteps _).trans (hend (Nat.lt_of_succ_lt_succ hlt))⟩
        rw [wire, ← hpop.wire_eq, ← hwire]
        rfl
      · rw [runWire_other hstep (by simp [hm])] at hlen ⊢
        obtain ⟨hwire, hend⟩ := ih hr' hrun (fun m hm => (hsame.slotSteps m).busy_eq.trans (hbusy m hm)) hlen
        exact ⟨hwire.trans (hsame.wire_eq _), fun hlt => (hsame.slotSteps _).trans (hend hlt)⟩

/-- The wire output of a shorter run is the beginning of a longer one's. -/
theorem wire_eq_take {m n : Nat} (s : State) (h : m ≤ n) : wire m s = (wire n s).take m := by
  obtain ⟨j, rfl⟩ := Nat.exists_eq_add_of_le h
  rw [wire_add, List.take_left' (length_wire m s)]

/-- Settles O57: the slot clock alone keeps the block busy until the last slot of the frame. -/
theorem frameAmongHostSteps : Obligations.FrameAmongHostSteps := by
  intro n s t _ hs hr hrun hlen
  have hbusy : ∀ m, m < s.latchCnt + 240 * s.cfg.pixels → busy (slotSteps m s) = true :=
    fun _ => busy_slotSteps_of_wait hs
  obtain ⟨hwire, hend⟩ := runWire_of_busy hr hrun hbusy hlen
  refine ⟨?_, fun hlt => (hend hlt).busy_eq.trans (hbusy _ hlt)⟩
  rw [← wire_of_wait hs, ← wire_eq_take s hlen]
  exact hwire

end Sys2Proof.Machine
end

section
/-! Proofs of the statements of 30_encoding.md about command words: the decoder opcode by opcode (R82 to R86), the rows of
the opcode map (R81), decoding against encoding (R89), and an accepted illegal word (R182). -/

namespace Sys2Proof

open Sys2Proof.Spec

/-! ### The decoder, opcode by opcode -/

/-- The command that a word selects under opcode `k`, whatever its reserved bits hold (R72 to R81): what is left of
`decode` once R82 and R83 are checked. -/
def fieldCommand (k : Nat) (w : Word) : Except Illegal Instr :=
  match k with
  | 0x1 => .ok (.setcolor (wordField w 16 8) (wordField w 8 8) (wordField w 0 8))
  | 0x2 => .ok (.set (wordField w 0 24).toInt)
  | 0x3 => .ok (.setxy (wordField w 12 12).toInt (wordField w 0 12).toInt)
  | 0x4 => .ok .fill
  | 0x5 => .ok .clear
  | 0x6 => .ok (.drawg (wordField w 8 16).toInt (wordField w 0 8))
  | 0x7 => .ok (.gwidth (wordField w 0 8))
  | 0x8 => .ok (.grow (wordField w 8 8) (wordField w 0 8))
  | 0x9 => kindCommand (wordField w 0 2)
  | 0xA => .ok (.vpush (wordField w 0 8))
  | 0xB => .ok (.vint (wordField w 0 24).toInt)
  | 0xC => .ok .canr
  | 0xD => (alignField (wordField w 0 2)).map (.drawv (w.getLsbD 2))
  | 0xE => .ok .transmit
  | _ => .error .reservedOpcode

/-- The decoder's opcode is the specification's. -/
theorem op_eq_opcodeOf (w : Word) : op w = opcodeOf w := (opcodeOf_eq w).symm

/-- An opcode has four bits. -/
theorem op_lt (w : Word) : op w < 16 := by
  rw [op_eq_opcodeOf]
  exact (wordField w 28 4).isLt

/-- The check of a reserved field as a check under its mask (R83). -/
theorem reservedZero_eq {w : Word} {lo len : Nat} (h : lo + len ≤ 32) (r : Except Illegal Instr) :
    reservedZero w lo len r = if w &&& fieldMask lo len = 0 then r else .error .reservedBits := by
  rw [reservedZero]
  exact if_congr (and_fieldMask_eq_zero h).symm rfl rfl

/-- The decoder as R86 orders its checks: the opcode, the reserved bits of its format, and then the command. -/
theorem decode_eq (w : Word) :
    decode w = if op w = 0x0 ∨ op w = 0xF then .error .reservedOpcode
      else if w &&& reservedMask (op w) = 0 then fieldCommand (op w) w else .error .reservedBits := by
  have hlt := op_lt w
  unfold decode
  rw [← op_eq_opcodeOf]
  generalize op w = k at hlt ⊢
  by_cases hbad : k = 0x0 ∨ k = 0xF
  · rcases hbad with rfl | rfl <;> rfl
  · rw [if_neg hbad]
    have hlegal : 1 ≤ k ∧ k ≤ 14 := by omega
    obtain ⟨hlow, hhigh⟩ := hlegal
    interval_cases k <;> exact reservedZero_eq (by decide) _

/-! ### The classes of words -/

/-- The field of R84 as the decoder reads it. -/
theorem low2_eq (w : Word) : low2 w = (wordField w 0 2).toNat := by
  rw [wordField_toNat, pow_zero, Nat.div_one]
  rfl

/-- A kind is a command exactly when it is 0 or 1, and else a reserved field value (R78, R84). -/
theorem kindCommand_cases (kind : BitVec 2) :
    ((kind.toNat = 2 ∨ kind.toNat = 3) ∧ kindCommand kind = .error .reservedField) ∨
    (¬ (kind.toNat = 2 ∨ kind.toNat = 3) ∧ ∃ i, kindCommand kind = .ok i) := by
  fin_cases kind
  · exact .inr ⟨by decide, _, rfl⟩
  · exact .inr ⟨by decide, _, rfl⟩
  · exact .inl ⟨by decide, rfl⟩
  · exact .inl ⟨by decide, rfl⟩

/-- An alignment code is one of the three exactly when it is not 3 (R80, R84). -/
theorem alignField_cases (a : BitVec 2) :
    (a.toNat = 3 ∧ alignField a = .error .reservedField) ∨ (a.toNat ≠ 3 ∧ ∃ x, alignField a = .ok x) := by
  fin_cases a
  · exact .inr ⟨by decide, _, rfl⟩
  · exact .inr ⟨by decide, _, rfl⟩
  · exact .inr ⟨by decide, _, rfl⟩
  · exact .inl ⟨by decide, rfl⟩

/-- Under a legal opcode the fields give a command, or a reserved field value is the reason that they do not (R84). -/
theorem fieldCommand_cases {w : Word} (h : ¬ badOpcode w) :
    (badField w ∧ fieldCommand (op w) w = .error .reservedField) ∨
    (¬ badField w ∧ ∃ i, fieldCommand (op w) w = .ok i) := by
  have hlt := op_lt w
  unfold badOpcode at h
  unfold badField fieldCommand
  rw [low2_eq]
  generalize op w = k at h hlt ⊢
  split
  case h_9 => simpa using kindCommand_cases (wordField w 0 2)
  case h_13 =>
    rcases alignField_cases (wordField w 0 2) with ⟨h3, ha⟩ | ⟨h3, x, ha⟩
    · exact .inl ⟨.inr ⟨rfl, h3⟩, by rw [ha]; rfl⟩
    · exact .inr ⟨by simp [h3], .drawv (w.getLsbD 2) x, by rw [ha]; rfl⟩
  case h_15 =>
    simp only [imp_false] at *
    omega
  all_goals exact .inr ⟨by simp, _, rfl⟩

/-- The four classes of words, with what the decoder answers for each (R85, R86). -/
theorem decode_cases (w : Word) :
    (badOpcode w ∧ decode w = .error .reservedOpcode) ∨
    (¬ badOpcode w ∧ badBits w ∧ decode w = .error .reservedBits) ∨
    (¬ badOpcode w ∧ ¬ badBits w ∧ badField w ∧ decode w = .error .reservedField) ∨
    (¬ badOpcode w ∧ ¬ badBits w ∧ ¬ badField w ∧ ∃ i, decode w = .ok i) := by
  have hdecode := decode_eq w
  by_cases hop : badOpcode w
  · exact .inl ⟨hop, hdecode.trans (if_pos hop)⟩
  have hlegal := hdecode.trans (if_neg hop)
  by_cases hbits : badBits w
  · exact .inr (.inl ⟨hop, hbits, hlegal.trans (if_neg hbits)⟩)
  rw [hlegal, if_pos (not_not.1 hbits)]
  rcases fieldCommand_cases hop with ⟨hfield, hw⟩ | ⟨hfield, hw⟩
  · exact .inr (.inr (.inl ⟨hop, hbits, hfield, hw⟩))
  · exact .inr (.inr (.inr ⟨hop, hbits, hfield, hw⟩))

/-- Settles O2: the four classes exclude each other. -/
theorem everyWordIsACommandOrIllegal : Obligations.EveryWordIsACommandOrIllegal := by
  intro w
  rcases decode_cases w with ⟨hop, hw⟩ | ⟨hop, hbits, hw⟩ | ⟨hop, hbits, hfield, hw⟩ | ⟨hop, hbits, hfield, i, hw⟩
  · simp [hw, hop]
  · simp [hw, hop, hbits]
  · simp [hw, hop, hbits, hfield]
  · simp [hw, hop, hbits, hfield]

/-! ### The rows of the opcode map -/

/-- Match `v` under mask `m` fixes a legal opcode `k` and sets all bits that its format reserves to 0. -/
abbrev IsRow (k : Nat) (m v : Word) : Prop :=
  (0 < k ∧ k < 15) ∧ (wordField m 28 4 = BitVec.allOnes 4 ∧ (wordField v 28 4).toNat = k) ∧
    m &&& reservedMask k = reservedMask k ∧ v &&& reservedMask k = 0

/-- A word of a row decodes to the command that its fields select under the row's opcode (R81). -/
theorem decode_of_isRow {k : Nat} {w m v : Word} (h : w &&& m = v) (hrow : IsRow k m v) :
    decode w = fieldCommand k w := by
  obtain ⟨hk, ⟨hm, hv⟩, hmask, hzero⟩ := hrow
  have hop : op w = k := by rw [op_eq_opcodeOf, opcodeOf, wordField_of_masked h 28 4 hm, hv]
  have hbits : w &&& reservedMask k = 0 := by rw [← hmask, ← BitVec.and_assoc, h, hzero]
  rw [decode_eq, hop, if_neg (by omega), if_pos hbits]

/-! Row by row: the command of a word that has the row's match under the row's mask. -/

theorem decode_setcolor {w : Word} (h : w &&& 0xFF000000 = 0x10000000) :
    decode w = .ok (.setcolor (wordField w 16 8) (wordField w 8 8) (wordField w 0 8)) :=
  decode_of_isRow (k := 0x1) h (by decide)

theorem decode_set {w : Word} (h : w &&& 0xFF000000 = 0x20000000) :
    decode w = .ok (.set (wordField w 0 24).toInt) :=
  decode_of_isRow (k := 0x2) h (by decide)

theorem decode_setxy {w : Word} (h : w &&& 0xFF000000 = 0x30000000) :
    decode w = .ok (.setxy (wordField w 12 12).toInt (wordField w 0 12).toInt) :=
  decode_of_isRow (k := 0x3) h (by decide)

theorem decode_drawg {w : Word} (h : w &&& 0xFF000000 = 0x60000000) :
    decode w = .ok (.drawg (wordField w 8 16).toInt (wordField w 0 8)) :=
  decode_of_isRow (k := 0x6) h (by decide)

theorem decode_gwidth {w : Word} (h : w &&& 0xFFFFFF00 = 0x70000000) : decode w = .ok (.gwidth (wordField w 0 8)) :=
  decode_of_isRow (k := 0x7) h (by decide)

theorem decode_grow {w : Word} (h : w &&& 0xFFFF0000 = 0x80000000) :
    decode w = .ok (.grow (wordField w 8 8) (wordField w 0 8)) :=
  decode_of_isRow (k := 0x8) h (by decide)

theorem decode_vpush {w : Word} (h : w &&& 0xFFFFFF00 = 0xA0000000) : decode w = .ok (.vpush (wordField w 0 8)) :=
  decode_of_isRow (k := 0xA) h (by decide)

theorem decode_vint {w : Word} (h : w &&& 0xFF000000 = 0xB0000000) :
    decode w = .ok (.vint (wordField w 0 24).toInt) :=
  decode_of_isRow (k := 0xB) h (by decide)

/-- The row of `DRAWV` once for each alignment, whose code is in the match. -/
theorem decode_drawv {w : Word} (align : Align) (h : w &&& 0xFFFFFFFB = 0x34000000#30 ++ alignCode align) :
    decode w = .ok (.drawv (w.getLsbD 2) align) := by
  have hcode : wordField w 0 2 = alignCode align :=
    (wordField_of_masked h 0 2 (by decide)).trans (by cases align <;> rfl)
  have halign : alignField (alignCode align) = .ok align := by cases align <;> rfl
  rw [decode_of_isRow (k := 0xD) h (by cases align <;> decide), fieldCommand, hcode, halign]
  rfl

/-- Settles O3, row by row of the table. -/
theorem opcodeTableRowsDecode : Obligations.OpcodeTableRowsDecode := by
  intro w
  exact ⟨decode_setcolor, decode_set, decode_setxy, by rintro rfl; rfl, by rintro rfl; rfl, decode_drawg, decode_gwidth,
    decode_grow, by rintro rfl; rfl, by rintro rfl; rfl, decode_vpush, decode_vint, by rintro rfl; rfl,
    decode_drawv .left, decode_drawv .right, decode_drawv .center, by rintro rfl; rfl⟩

/-- Settles O4, by evaluating the decoder. -/
theorem exampleWordsDecode : Obligations.ExampleWordsDecode :=
  ⟨rfl, rfl, rfl, rfl, rfl, rfl, rfl, rfl, rfl, rfl, rfl, rfl, rfl, rfl, rfl, rfl, rfl⟩

/-! ### Decoding against encoding -/

/-- A two's-complement field holds every integer of its range (R11). -/
theorem toInt_ofInt_of_fits {n : Nat} (hn : 0 < n) {v : Int} (h : fitsSigned n v) : (BitVec.ofInt n v).toInt = v :=
  BitVec.toInt_ofInt_eq_self hn h.1 (Int.lt_of_le_sub_one h.2)

/-- A field is known by its value. -/
theorem wordField_eq {w : Word} {lo len : Nat} {x : BitVec len} (h : w.toNat / 2 ^ lo % 2 ^ len = x.toNat) :
    wordField w lo len = x :=
  BitVec.eq_of_toNat_eq ((wordField_toNat w lo len).trans h)

/-- A signed field is known by its value, when that is in the field's range (R11). -/
theorem toInt_wordField_eq {w : Word} {lo n : Nat} {v : Int} (hn : 0 < n) (hv : fitsSigned n v)
    (h : w.toNat / 2 ^ lo % 2 ^ n = (BitVec.ofInt n v).toNat) : (wordField w lo n).toInt = v := by
  rw [wordField_eq h, toInt_ofInt_of_fits hn hv]

/-- Decoding inverts encoding on commands whose operands are in range: each field of the word holds its operand (R89). -/
theorem decode_encode {i : Instr} (hi : i.WellFormed) : decode (encode i) = .ok i := by
  cases i with
  | setcolor g r b =>
    rw [decode_setcolor (Laws.EncodeRow.setcolor g r b)]
    congr 2 <;> exact wordField_eq (by simp only [encode, toNat_concat]; omega)
  | set idx =>
    have hidx : fitsSigned 24 idx := of_decide_eq_true hi
    rw [decode_set (Laws.EncodeRow.set idx)]
    congr 2
    exact toInt_wordField_eq (by decide) hidx (by simp only [encode, toNat_concat]; omega)
  | setxy x y =>
    obtain ⟨hx, hy⟩ : fitsSigned 12 x ∧ fitsSigned 12 y := of_decide_eq_true hi
    rw [decode_setxy (Laws.EncodeRow.setxy x y)]
    congr 2
    · exact toInt_wordField_eq (by decide) hx (by simp only [encode, toNat_concat]; omega)
    · exact toInt_wordField_eq (by decide) hy (by simp only [encode, toNat_concat]; omega)
  | drawg x c =>
    have hx : fitsSigned 16 x := of_decide_eq_true hi
    rw [decode_drawg (Laws.EncodeRow.drawg x c)]
    congr 2
    · exact toInt_wordField_eq (by decide) hx (by simp only [encode, toNat_concat]; omega)
    · exact wordField_eq (by simp only [encode, toNat_concat]; omega)
  | gwidth c =>
    rw [decode_gwidth (Laws.EncodeRow.gwidth c)]
    congr 2
    exact wordField_eq (by simp only [encode, toNat_concat]; omega)
  | grow row c =>
    rw [decode_grow (Laws.EncodeRow.grow row c)]
    congr 2 <;> exact wordField_eq (by simp only [encode, toNat_concat]; omega)
  | vpush c =>
    rw [decode_vpush (Laws.EncodeRow.vpush c)]
    congr 2
    exact wordField_eq (by simp only [encode, toNat_concat]; omega)
  | vint imm =>
    have himm : fitsSigned 24 imm := of_decide_eq_true hi
    rw [decode_vint (Laws.EncodeRow.vint imm)]
    congr 2
    exact toInt_wordField_eq (by decide) himm (by simp only [encode, toNat_concat]; omega)
  | drawv sign align => cases sign <;> cases align <;> rfl
  | fill | clear | vnone | vstr | canr | transmit => rfl

/-- A field that passed the check of reserved bits is 0 (R83). -/
theorem field_eq_zero_of_reservedZero {w : Word} {lo len : Nat} {r : Except Illegal Instr} {i : Instr}
    (h : reservedZero w lo len r = .ok i) : w.toNat / 2 ^ lo % 2 ^ len = 0 := by
  unfold reservedZero at h
  split at h
  case isTrue h0 => rw [← wordField_toNat, h0]; rfl
  case isFalse => cases h

/-- A command of opcode 0x9 is encoded with the kind that selects it (R78). -/
theorem encode_of_kindCommand {kind : BitVec 2} {i : Instr} (h : kindCommand kind = .ok i) :
    encode i = 0x24000000#30 ++ kind := by
  unfold kindCommand at h
  split at h
  case isTrue h0 => cases h; rw [h0]; rfl
  case isFalse =>
    split at h
    case isTrue h1 => cases h; rw [h1]; rfl
    case isFalse => cases h

/-- The code of a decoded alignment is the field it was read from (R80). -/
theorem alignCode_of_alignField {a : BitVec 2} {align : Align} (h : alignField a = .ok align) : alignCode align = a := by
  unfold alignField at h
  split_ifs at h with h0 h1 h2
  · cases h; exact h0.symm
  · cases h; exact h1.symm
  · cases h; exact h2.symm

/-- A single bit is a field of length 1. -/
theorem ofBool_getLsbD (w : Word) (i : Nat) : BitVec.ofBool (w.getLsbD i) = wordField w i 1 := by
  refine BitVec.eq_of_getLsbD_eq fun j hj => ?_
  obtain rfl : j = 0 := by omega
  simp [wordField]

/-- Encoding inverts decoding on words that decode to a command: the opcode, the reserved bits and the fields of a word
are all of it (R89). `split` numbers the cases by their opcodes. -/
theorem encode_of_decode {w : Word} {i : Instr} (h : decode w = .ok i) : encode i = w := by
  refine BitVec.eq_of_toNat_eq ?_
  unfold decode at h
  split at h
  case h_15 => cases h
  all_goals
    rename_i hop
    rw [opcodeOf_eq] at hop
    have hzero := field_eq_zero_of_reservedZero h
    replace h := eq_ok_of_reservedZero h
  case h_9 =>
    rw [encode_of_kindCommand h, toNat_concat, wordField_toNat]
    simp only [BitVec.reduceToNat]
    omega
  case h_13 =>
    cases halign : alignField (wordField w 0 2) <;> rw [halign] at h <;> cases h
    simp only [encode, toNat_concat, alignCode_of_alignField halign, ofBool_getLsbD, wordField_toNat, BitVec.reduceToNat]
    omega
  all_goals
    cases h
    simp only [encode, toNat_concat, BitVec.ofInt_toInt, wordField_toNat, BitVec.reduceToNat]
    omega

/-- Settles O1: the operands of a decoded command are in range, and the encoder puts the fields back. -/
theorem decodeAndEncodeAgree : Obligations.DecodeAndEncodeAgree :=
  ⟨fun _ => decode_encode, fun _ _ h => ⟨wellFormed_of_decode h, encode_of_decode h⟩⟩

end Sys2Proof

namespace Sys2Proof.Machine

open Sys2Proof.Spec

/-! ### An accepted illegal word -/

/-- An illegal word does not decode (R85). -/
theorem not_decode_ok_of_illegal {w : Word} (h : badOpcode w ∨ badBits w ∨ badField w) (i : Instr) :
    decode w ≠ .ok i := fun hw => by
  obtain ⟨-, -, -, hok⟩ := everyWordIsACommandOrIllegal w
  obtain ⟨hop, hbits, hfield⟩ := hok.1 ⟨i, hw⟩
  exact h.elim hop (·.elim hbits hfield)

/-- Settles O6: an idle block accepts the word, and the word does not decode. -/
theorem illegalWordOnlySetsErr : Obligations.IllegalWordOnlySetsErr := by
  intro s ts rest w ht hb hs hw
  rw [step_of_turn ht]
  refine (hostStep_cmd (s := { s with turns := ts }) hb hs).trans ?_
  rcases acceptCommand_cases w { s with turns := ts, bus := rest } with ⟨i, hi, -⟩ | ⟨-, herr⟩
  · exact absurd hi (not_decode_ok_of_illegal hw i)
  · exact herr

end Sys2Proof.Machine
end

section
/-! Proofs of the statements of 30_encoding.md about assembler text: the words of a line and the pseudo-instructions
(R87, R88). -/

namespace Sys2Proof.Machine

open Sys2Proof.Spec

/-! ### The words of a line -/

/-- The words of a line that names the commands `is`: their encodings, unless an operand is out of its range (R87). -/
def wordsOf (is : List Instr) : Option (List Word) := if ∀ i ∈ is, i.WellFormed then some (is.map encode) else none

/-- What becomes of a line whose tokens name commands. -/
theorem assembleLine_eq {line mn : List Char} {rest ops : List Token}
    (hlex : lexLine line (.plain []) = some (.word mn :: rest)) (hops : operandList rest = some ops) :
    assembleLine line = (assembleParts mn ops).bind wordsOf := by
  simp only [assembleLine, hlex, hops, Option.bind_some]
  rfl

/-- Only such a line assembles. -/
theorem assembleLine_eq_some {line : List Char} {ws : List Word} (h : assembleLine line = some ws) :
    ∃ mn rest ops is, lexLine line (.plain []) = some (.word mn :: rest) ∧ operandList rest = some ops ∧
      assembleParts mn ops = some is ∧ wordsOf is = some ws := by
  obtain ⟨ts, hlex, hts⟩ := Option.bind_eq_some_iff.1 h
  split at hts
  next mn rest =>
    obtain ⟨ops, hops, hparts⟩ := Option.bind_eq_some_iff.1 hts
    obtain ⟨is, his, hws⟩ := Option.bind_eq_some_iff.1 hparts
    exact ⟨mn, rest, ops, is, hlex, hops, his, hws⟩
  next => cases hts

/-- Settles O56: such a line's words are those of its commands. -/
theorem assembledWordsAreCommands : Obligations.AssembledWordsAreCommands := by
  refine ⟨fun line mn rest ops is hlex hops his => ?_, fun line ws h => ?_⟩
  · have hline : assembleLine line = wordsOf is := by rw [assembleLine_eq hlex hops, his, Option.bind_some]
    refine ⟨fun hbad => hline.trans (if_neg ?_),
      fun hwf => ⟨hline.trans (if_pos hwf), fun i hi => decode_encode (hwf i hi)⟩⟩
    simpa using hbad
  · obtain ⟨mn, rest, ops, is, hlex, hops, his, hws⟩ := assembleLine_eq_some h
    obtain ⟨hwf, hmap⟩ := Option.ite_none_right_eq_some.1 hws
    exact ⟨mn, rest, ops, is, hlex, hops, his, hwf, (Option.some.inj hmap).symm⟩

/-! ### The ranges of R87 for the commands with signed operands -/

theorem wellFormed_set_iff {idx : Int} : (Instr.set idx).WellFormed ↔ -8388608 ≤ idx ∧ idx ≤ 8388607 :=
  decide_eq_true_iff

theorem wellFormed_setxy_iff {x y : Int} :
    (Instr.setxy x y).WellFormed ↔ (-2048 ≤ x ∧ x ≤ 2047) ∧ -2048 ≤ y ∧ y ≤ 2047 :=
  decide_eq_true_iff

theorem wellFormed_drawg_iff {x : Int} {c : Byte} : (Instr.drawg x c).WellFormed ↔ -32768 ≤ x ∧ x ≤ 32767 :=
  decide_eq_true_iff

theorem wellFormed_vint_iff {imm : Int} : (Instr.vint imm).WellFormed ↔ -8388608 ≤ imm ∧ imm ≤ 8388607 :=
  decide_eq_true_iff

/-! ### The pseudo-instructions -/

/-- The commands of a string are well-formed (R88). -/
theorem wellFormed_of_mem_expandText {str : List Byte} {is : List Instr} (h : expandText str = some is) :
    ∀ i ∈ is, i.WellFormed := by
  obtain ⟨-, his⟩ := Option.ite_none_right_eq_some.1 h
  cases his
  refine List.forall_mem_cons.2 ⟨rfl, fun i hi => ?_⟩
  obtain ⟨c, -, rfl⟩ := List.mem_map.1 hi
  rfl

/-- A setting of the colour keeps the commands after it well-formed. -/
theorem wellFormed_setcolor_cons {g r b : Byte} {i : Instr} (hi : i.WellFormed) :
    ∀ j ∈ [.setcolor g r b, i], j.WellFormed :=
  List.forall_mem_cons.2 ⟨rfl, List.forall_mem_singleton.2 hi⟩

/-- A pseudo-instruction with operands in range expands to well-formed commands: only its own signed operands are
restricted (R88). -/
theorem wellFormed_of_mem_expand {p : Pseudo} {is : List Instr} (hp : pseudoInRange p) (h : p.expand = some is) :
    ∀ i ∈ is, i.WellFormed := by
  cases p with
  | pset idx r g b => cases h; exact wellFormed_setcolor_cons (wellFormed_set_iff.2 hp)
  | pxy x y r g b => cases h; exact wellFormed_setcolor_cons (wellFormed_setxy_iff.2 hp)
  | fillc r g b => cases h; exact wellFormed_setcolor_cons rfl
  | glyph c x r g b => cases h; exact wellFormed_setcolor_cons (wellFormed_drawg_iff.2 hp)
  | text str => exact wellFormed_of_mem_expandText h
  | drawt str r g b align =>
    obtain ⟨cs, hcs, rfl⟩ := Option.map_eq_some_iff.1 h
    exact List.forall_mem_append.2 ⟨wellFormed_of_mem_expandText hcs, wellFormed_setcolor_cons rfl⟩
  | drawi v r g b align sign =>
    cases h
    exact List.forall_mem_cons.2 ⟨wellFormed_vint_iff.2 hp, wellFormed_setcolor_cons rfl⟩

/-- `drawt` is its text's commands and two more, refused with the text (R88). -/
theorem expand_drawt (str : List Byte) (r g b : Byte) (align : Option Align) :
    (Pseudo.drawt str r g b align).expand = if str.length ≤ textMax then
      some (.vstr :: str.map .vpush ++ [.setcolor g r b, .drawv false (align.getD .center)]) else none := by
  rw [Pseudo.expand, expandText]
  split <;> rfl

/-- Settles O55: every expansion but `drawt`'s is as `expand` writes it. -/
theorem pseudoInstructionsExpand : Obligations.PseudoInstructionsExpand :=
  ⟨fun _ _ => wellFormed_of_mem_expand, fun _ _ _ r g b _ str align _ =>
    ⟨rfl, rfl, rfl, rfl, rfl, expand_drawt str r g b align, rfl⟩⟩

/-! ### The tokens of a line -/

/-- A character that a bare word may hold: no quote mark, comma or space. -/
def isBare (c : Char) : Bool := c != charQuote && c != strQuote && c != ',' && c != ' '

/-- A text that reads as one bare word. -/
def isWord (cs : List Char) : Bool := !cs.isEmpty && cs.all isBare

/-- Text `t` reads as the token `tok`, alone and before a comma. -/
structure IsToken (t : List Char) (tok : Token) : Prop where
  alone       : lexLine t (.plain []) = some [tok]
  beforeComma : ∀ rest, lexLine (t ++ ',' :: rest) (.plain []) =
    (lexLine rest (.plain [])).map fun ts => tok :: .comma :: ts
  neComma     : tok ≠ .comma

/-- Bare characters are collected into the word that is being read. -/
theorem lexLine_bare {cs : List Char} (hcs : cs.all isBare = true) (rest acc : List Char) :
    lexLine (cs ++ rest) (.plain acc) = lexLine rest (.plain (cs.reverse ++ acc)) := by
  induction cs generalizing acc with
  | nil => rfl
  | cons c cs ih =>
    simp only [List.all_cons, isBare, Bool.and_eq_true, bne_iff_ne] at hcs
    obtain ⟨⟨⟨⟨hchar, hstr⟩, hcomma⟩, hspace⟩, hcs⟩ := hcs
    rw [List.cons_append, lexLine, if_neg hchar, if_neg hstr, if_neg hcomma, if_neg hspace, ih hcs]
    simp

/-- A space before a token is skipped. -/
theorem lexLine_space (rest : List Char) : lexLine (' ' :: rest) (.plain []) = lexLine rest (.plain []) := by
  have h : lexLine (' ' :: rest) (.plain []) = (lexLine rest (.plain [])).map id := rfl
  rw [h, Option.map_id, id]

/-- A comma ends the token before it. -/
theorem lexLine_comma (rest acc : List Char) : lexLine (',' :: rest) (.plain acc) =
    (lexLine rest (.plain [])).map fun ts => flushWord acc (.comma :: ts) := rfl

/-- A collected word is the text it was read from. -/
theorem flushWord_reverse {cs : List Char} (hcs : cs ≠ []) (ts : List Token) :
    flushWord (cs.reverse ++ []) ts = .word cs :: ts := by
  simp [flushWord, hcs]

/-- A bare word is a token. -/
theorem isToken_word {cs : List Char} (h : isWord cs = true) : IsToken cs (.word cs) := by
  obtain ⟨hne, hbare⟩ : cs ≠ [] ∧ cs.all isBare = true := by simpa [isWord] using h
  refine ⟨?_, fun rest => ?_, nofun⟩
  · have hend := lexLine_bare hbare [] []
    rw [List.append_nil] at hend
    rw [hend, lexLine, flushWord_reverse hne]
  · rw [lexLine_bare hbare, lexLine_comma]
    simp only [flushWord_reverse hne]

/-- A quoted character is a token, whatever the character. -/
theorem isToken_char (ch : Char) : IsToken ['\'', ch, '\''] (.char ch) := by
  refine ⟨rfl, fun rest => ?_, nofun⟩
  have h : lexLine (['\'', ch, '\''] ++ ',' :: rest) (.plain []) =
      (lexLine (',' :: rest) (.plain [])).map (.char ch :: ·) := rfl
  rw [h, lexLine_comma, Option.map_map]
  rfl

/-- The operands of a line read as their tokens with commas between them. -/
theorem lexLine_operands {t : List Char} {tok : Token} (h : IsToken t tok) {ts : List (List Char)} {toks : List Token}
    (hs : List.Forall₂ IsToken ts toks) :
    lexLine (t ++ ts.flatMap fun u => ',' :: ' ' :: u) (.plain []) = some (tok :: toks.flatMap fun u => [.comma, u]) := by
  induction hs generalizing t tok with
  | nil => simpa using h.alone
  | cons hu _ ih =>
    rw [List.flatMap_cons, List.cons_append, h.beforeComma, List.cons_append, lexLine_space, ih hu]
    rfl

/-- The operand list of tokens with commas between them is those tokens. -/
theorem operandList_flatMap {tok : Token} (h : tok ≠ .comma) {toks : List Token} (hs : ∀ u ∈ toks, u ≠ .comma) :
    operandList (tok :: toks.flatMap fun u => [.comma, u]) = some (tok :: toks) := by
  induction toks generalizing tok with
  | nil =>
    cases tok with
    | comma => exact absurd rfl h
    | word | char | str => rfl
  | cons u toks ih =>
    obtain ⟨hu, hs⟩ := List.forall_mem_cons.1 hs
    cases tok with
    | comma => exact absurd rfl h
    | word | char | str => simp [operandList, ih hu hs]

/-- A space ends the word before it. -/
theorem lexLine_word_space {cs : List Char} (h : isWord cs = true) (rest : List Char) :
    lexLine (cs ++ ' ' :: rest) (.plain []) = (lexLine rest (.plain [])).map (.word cs :: ·) := by
  obtain ⟨hne, hbare⟩ : cs ≠ [] ∧ cs.all isBare = true := by simpa [isWord] using h
  have hspace (acc : List Char) : lexLine (' ' :: rest) (.plain acc) =
      (lexLine rest (.plain [])).map (flushWord acc) := rfl
  rw [lexLine_bare hbare, hspace, funext (flushWord_reverse hne)]

/-- No operand's token is a comma. -/
theorem ne_comma_of_forall₂ {ts : List (List Char)} {toks : List Token} (hs : List.Forall₂ IsToken ts toks) :
    ∀ u ∈ toks, u ≠ .comma := by
  induction hs with
  | nil => exact List.forall_mem_nil _
  | cons h _ ih => exact List.forall_mem_cons.2 ⟨h.neComma, ih⟩

/-- What becomes of a line written as a mnemonic and its operands (R87). -/
theorem assembleLine_lineText {mn : String} (hmn : isWord mn.toList = true) {ts : List (List Char)} {toks : List Token}
    (hs : List.Forall₂ IsToken ts toks) :
    assembleLine (lineText mn ts) = (assembleParts mn.toList toks).bind wordsOf := by
  cases hs with
  | nil => exact assembleLine_eq (isToken_word hmn).alone rfl
  | cons h hs =>
    refine assembleLine_eq ?_ (operandList_flatMap h.neComma (ne_comma_of_forall₂ hs))
    rw [lineText, List.append_assoc, List.cons_append, lexLine_word_space hmn, lexLine_operands h hs, Option.map_some]

/-! ### Integers -/

/-- The value of a digit is the digit (R87). -/
theorem digitValue_digitChar {base d : Nat} (hbase : base ≤ 16) (hd : d < base) :
    digitValue base d.digitChar = some d := by
  have h16 : d < 16 := by omega
  interval_cases d <;> simp [digitValue, Nat.digitChar, hd]

/-- The value of a run of digits after one more digit. -/
theorem digitsValue_append_digit {base : Nat} {cs : List Char} (hcs : cs ≠ []) (c : Char) :
    digitsValue base (cs ++ [c]) =
      (digitsValue base cs).bind fun a => (digitValue base c).map fun d => a * base + d := by
  simp [digitsValue, hcs]

/-- The value of one digit alone. -/
theorem digitsValue_singleton (base : Nat) (c : Char) : digitsValue base [c] = digitValue base c := by
  simp [digitsValue]

/-- The digits of a number in a base up to 16 have the number's value. -/
theorem digitsValue_toDigits {base : Nat} (h1 : 1 < base) (h16 : base ≤ 16) (n : Nat) :
    digitsValue base (Nat.toDigits base n) = some n := by
  induction n using Nat.strong_induction_on with
  | _ n ih =>
    by_cases hn : n < base
    · rw [Nat.toDigits_of_lt_base hn, digitsValue_singleton, digitValue_digitChar h16 hn]
    · have hdiv : n / base < n := Nat.div_lt_self (by omega) h1
      rw [Nat.toDigits_of_base_le h1 (by omega), digitsValue_append_digit Nat.toDigits_ne_nil, ih _ hdiv,
        digitValue_digitChar h16 (Nat.mod_lt _ (by omega)), Option.bind_some, Option.map_some, Nat.div_add_mod']

/-- The characters of a number are digits of its base. -/
theorem exists_digitChar_of_mem_toDigits {base : Nat} (h1 : 1 < base) {n : Nat} {c : Char}
    (hc : c ∈ Nat.toDigits base n) : ∃ d < base, c = d.digitChar := by
  induction n using Nat.strong_induction_on with
  | _ n ih =>
    by_cases hn : n < base
    · rw [Nat.toDigits_of_lt_base hn, List.mem_singleton] at hc
      exact ⟨n, hn, hc⟩
    · rw [Nat.toDigits_of_base_le h1 (by omega), List.mem_append, List.mem_singleton] at hc
      rcases hc with hc | hc
      · exact ih _ (Nat.div_lt_self (by omega) h1) hc
      · exact ⟨n % base, Nat.mod_lt _ (by omega), hc⟩

/-- The digits of a number, in a base up to 16, are bare characters other than the `x` and the `-` of R87. -/
theorem digit_of_mem_toDigits {base : Nat} (h1 : 1 < base) (h16 : base ≤ 16) {n : Nat} {c : Char}
    (hc : c ∈ Nat.toDigits base n) : isBare c = true ∧ c ≠ 'x' ∧ c ≠ '-' := by
  obtain ⟨d, hd, rfl⟩ := exists_digitChar_of_mem_toDigits h1 hc
  have hall : ∀ d < 16, isBare d.digitChar = true ∧ d.digitChar ≠ 'x' ∧ d.digitChar ≠ '-' := by decide
  exact hall d (Nat.lt_of_lt_of_le hd h16)

/-- The text of a magnitude: hexadecimal after `0x`, or decimal (R87). -/
def natChars (hex : Bool) (n : Nat) : List Char :=
  if hex then '0' :: 'x' :: Nat.toDigits 16 n else Nat.toDigits 10 n

/-- Decimal digits have no `x` among them, so they are no hexadecimal text. -/
theorem natText_of_no_x {cs : List Char} (h : ∀ c ∈ cs, c ≠ 'x') : natText cs = digitsValue 10 cs := by
  unfold natText
  split
  · exact absurd rfl (h 'x' (by simp))
  · rfl

/-- The text of a magnitude has its value. -/
theorem natText_natChars (hex : Bool) (n : Nat) : natText (natChars hex n) = some n := by
  cases hex with
  | true => exact digitsValue_toDigits (base := 16) (by decide) (by decide) n
  | false =>
    have hno : ∀ c ∈ Nat.toDigits 10 n, c ≠ 'x' := fun c hc => (digit_of_mem_toDigits (by decide) (by decide) hc).2.1
    exact (natText_of_no_x hno).trans (digitsValue_toDigits (by decide) (by decide) n)

/-- The text of a magnitude holds bare characters and no sign. -/
theorem bare_of_mem_natChars {hex : Bool} {n : Nat} {c : Char} (hc : c ∈ natChars hex n) :
    isBare c = true ∧ c ≠ '-' := by
  cases hex with
  | true =>
    rcases List.mem_cons.1 hc with rfl | hc
    · decide
    rcases List.mem_cons.1 hc with rfl | hc
    · decide
    · exact (digit_of_mem_toDigits (by decide) (by decide) hc).imp_right And.right
  | false => exact (digit_of_mem_toDigits (by decide) (by decide) hc).imp_right And.right

/-- The text of a magnitude is one word. -/
theorem isWord_natChars (hex : Bool) (n : Nat) : isWord (natChars hex n) = true := by
  have hne : natChars hex n ≠ [] := by cases hex <;> simp [natChars]
  have hbare : (natChars hex n).all isBare = true := List.all_eq_true.2 fun _ hc => (bare_of_mem_natChars hc).1
  simp [isWord, hne, hbare]

/-- A text after `-` has the negated value. -/
theorem intText_minus {cs : List Char} {n : Nat} (hn : natText cs = some n) : intText ('-' :: cs) = some (-(n : Int)) := by
  rw [intText, hn]
  rfl

/-- A text without `-` has the value of its magnitude. -/
theorem intText_of_no_minus {cs : List Char} {n : Nat} (h : ∀ c ∈ cs, c ≠ '-') (hn : natText cs = some n) :
    intText cs = some (n : Int) := by
  unfold intText
  split
  · exact absurd rfl (h '-' (by simp))
  · rw [hn]; rfl

/-- The text of a negative integer. -/
theorem numText_of_neg {hex : Bool} {v : Int} (h : v < 0) : numText hex v = '-' :: natChars hex v.natAbs := by
  rw [numText, if_pos h]
  rfl

/-- The text of an integer that is not negative. -/
theorem numText_of_not_neg {hex : Bool} {v : Int} (h : ¬ v < 0) : numText hex v = natChars hex v.natAbs := by
  rw [numText, if_neg h]
  rfl

/-- An integer's text has the integer's value (R87). -/
theorem intText_numText (hex : Bool) (v : Int) : intText (numText hex v) = some v := by
  have hnat := natText_natChars hex v.natAbs
  by_cases hv : v < 0
  · rw [numText_of_neg hv, intText_minus hnat]
    exact congrArg some (by omega)
  · rw [numText_of_not_neg hv, intText_of_no_minus (fun _ hc => (bare_of_mem_natChars hc).2) hnat]
    exact congrArg some (by omega)

/-- An integer's text is one word. -/
theorem isWord_numText (hex : Bool) (v : Int) : isWord (numText hex v) = true := by
  have habs := isWord_natChars hex v.natAbs
  by_cases hv : v < 0
  · rw [numText_of_neg hv]
    rw [isWord, Bool.and_eq_true] at habs
    exact habs.2
  · rwa [numText_of_not_neg hv]

/-! ### Operands -/

/-- The byte of an operand in `0..255`, which is refused outside (R87). -/
def byteValue (v : Int) : Option Byte := if byteRange v then some (BitVec.ofInt 8 v) else none

/-- Text `t` is a token that the assembler reads as the integer `v`. -/
structure ReadsInt (t : List Char) (v : Int) : Prop where
  token : IsToken t (.word t)
  value : intOperand (.word t) = some v

/-- An integer operand is read as its value. -/
theorem readsInt_of_isIntText {t : List Char} {v : Int} (h : isIntText t v) : ReadsInt t v := by
  obtain ⟨hex, rfl⟩ := h
  exact ⟨isToken_word (isWord_numText hex v), intText_numText hex v⟩

/-- As a byte it is read in range only. -/
theorem ReadsInt.byteOperand {t : List Char} {v : Int} (h : ReadsInt t v) : byteOperand (.word t) = byteValue v := by
  rw [Machine.byteOperand, h.value]
  rfl

/-- As a sign it is read when it is 0 or 1. -/
theorem ReadsInt.signOperand {t : List Char} {v : Int} (h : ReadsInt t v) :
    signOperand (.word t) = if v = 0 then some false else if v = 1 then some true else none := by
  rw [Machine.signOperand, h.value]
  rfl

/-- A character operand is read as its code, in range only. -/
theorem exists_token_of_isCharText {t : List Char} {v : Int} (h : isCharText t v) :
    ∃ tok, IsToken t tok ∧ charOperand tok = byteValue v := by
  rcases h with hint | ⟨ch, hlt, rfl, rfl⟩
  · have hread := readsInt_of_isIntText hint
    exact ⟨.word t, hread.token, hread.byteOperand⟩
  · refine ⟨.char ch, isToken_char ch, ?_⟩
    rw [charOperand, charCode, byteValue, if_pos hlt, if_pos (by constructor <;> omega)]
    rfl

/-- An alignment's name is a token. -/
theorem isToken_alignText (align : Align) : IsToken (alignText align) (.word (alignText align)) :=
  isToken_word (by cases align <;> rfl)

/-- It is read as the alignment (R87). -/
theorem alignOperand_alignText (align : Align) : alignOperand (.word (alignText align)) = some align := by
  cases align <;> rfl

/-- A byte out of range refuses what is made of it. -/
theorem byteValue_bind {β : Type} (v : Int) (f : Byte → Option β) :
    (byteValue v).bind f = if byteRange v then f (BitVec.ofInt 8 v) else none := by
  rw [byteValue]
  split <;> rfl

/-- The same of a function without refusals of its own. -/
theorem byteValue_map {β : Type} (v : Int) (f : Byte → β) :
    (byteValue v).map f = if byteRange v then some (f (BitVec.ofInt 8 v)) else none := by
  rw [byteValue]
  split <;> rfl

/-- Three channels are read when all of them are in range. -/
theorem rgbOperands_eq {a b d : List Char} {u v w : Int} (ha : ReadsInt a u) (hb : ReadsInt b v) (hd : ReadsInt d w) :
    rgbOperands (.word a) (.word b) (.word d) = if byteRange u ∧ byteRange v ∧ byteRange w then
      some (BitVec.ofInt 8 u, BitVec.ofInt 8 v, BitVec.ofInt 8 w) else none := by
  rw [rgbOperands, ha.byteOperand, hb.byteOperand, hd.byteOperand, byteValue_bind, byteValue_bind, byteValue_map,
    ← ite_and, ← ite_and]
  exact if_congr and_assoc rfl rfl

/-! ### The rows of the table of R87 -/

/-- A line that names one command when `P` holds, and none otherwise, has the command's word when `P` holds and the
command's operands are in range. -/
theorem assembleLine_of_ite {mn : String} {ts : List (List Char)} {toks : List Token} {P R : Prop} [Decidable P]
    [Decidable R] {i : Instr} (hmn : isWord mn.toList = true) (hs : List.Forall₂ IsToken ts toks)
    (hparts : assembleParts mn.toList toks = if P then some [i] else none) (hR : P ∧ i.WellFormed ↔ R) :
    assembleLine (lineText mn ts) = if R then some [encode i] else none := by
  rw [assembleLine_lineText hmn hs, hparts, ← if_congr hR rfl rfl, ite_and]
  split
  · simp only [Option.bind_some, wordsOf, List.forall_mem_singleton, List.map_singleton]
  · rfl

/-- A line that names one command without a signed operand has the command's word. -/
theorem assembleLine_of_some {mn : String} {ts : List (List Char)} {toks : List Token} {i : Instr}
    (hmn : isWord mn.toList = true) (hs : List.Forall₂ IsToken ts toks)
    (hparts : assembleParts mn.toList toks = some [i]) (hi : i.WellFormed) :
    assembleLine (lineText mn ts) = some [encode i] := by
  rw [assembleLine_lineText hmn hs, hparts]
  exact if_pos (List.forall_mem_singleton.2 hi)

/-- Settles O59, row by row of the table of R87: the tokens of the operands, what the assembler makes of them, and the
ranges of the command. -/
theorem assemblerFollowsSyntax : Obligations.AssemblerFollowsSyntax := by
  intro a b d ch u v w c ha hb hd hch
  replace ha := readsInt_of_isIntText ha
  replace hb := readsInt_of_isIntText hb
  replace hd := readsInt_of_isIntText hd
  obtain ⟨tok, htok, hc⟩ := exists_token_of_isCharText hch
  have one : List.Forall₂ IsToken [a] [.word a] := .cons ha.token .nil
  refine ⟨?setcolor, ?set, ?setxy, assembleLine_of_some rfl .nil rfl rfl, assembleLine_of_some rfl .nil rfl rfl, ?drawg,
    ?gwidth, ?grow, assembleLine_of_some rfl .nil rfl rfl, assembleLine_of_some rfl .nil rfl rfl, ?vpush, ?vint,
    assembleLine_of_some rfl .nil rfl rfl, fun align => ?drawv, fun align => ?drawvAlign,
    assembleLine_of_some rfl .nil rfl rfl, assembleLine_of_some rfl .nil rfl rfl⟩
  case setcolor =>
    refine assembleLine_of_ite rfl (.cons ha.token (.cons hb.token (.cons hd.token .nil))) ?_ (and_iff_left rfl)
    change (rgbOperands _ _ _).map _ = _
    rw [rgbOperands_eq ha hb hd]
    split <;> rfl
  case set =>
    refine assembleLine_of_ite (P := True) rfl one ?_ (by rw [true_and, wellFormed_set_iff])
    exact congrArg (Option.map fun x => [Instr.set x]) ha.value
  case vint =>
    refine assembleLine_of_ite (P := True) rfl one ?_ (by rw [true_and, wellFormed_vint_iff])
    exact congrArg (Option.map fun x => [Instr.vint x]) ha.value
  case setxy =>
    refine assembleLine_of_ite (P := True) rfl (.cons ha.token (.cons hb.token .nil)) ?_
      (by rw [true_and, wellFormed_setxy_iff])
    change (intOperand _).bind _ = _
    rw [ha.value, hb.value]
    rfl
  case drawg =>
    refine assembleLine_of_ite rfl (.cons htok one) ?_ (and_congr_right' wellFormed_drawg_iff)
    change (charOperand _).bind _ = _
    rw [hc, ha.value, byteValue_bind]
    rfl
  case gwidth =>
    refine assembleLine_of_ite rfl (.cons htok .nil) ?_ (and_iff_left rfl)
    exact (congrArg (Option.map fun x => [Instr.gwidth x]) hc).trans (byteValue_map ..)
  case vpush =>
    refine assembleLine_of_ite rfl (.cons htok .nil) ?_ (and_iff_left rfl)
    exact (congrArg (Option.map fun x => [Instr.vpush x]) hc).trans (byteValue_map ..)
  case grow =>
    refine assembleLine_of_ite rfl (.cons htok one) ?_ (and_iff_left rfl)
    change (charOperand _).bind _ = _
    rw [hc, ha.byteOperand, byteValue_bind, byteValue_map, ← ite_and]
  case drawv =>
    rw [assembleLine_lineText rfl (.cons (isToken_alignText align) one)]
    change ((alignOperand _).bind _).bind wordsOf = _
    rw [alignOperand_alignText, ha.signOperand]
    split
    · rfl
    · split <;> rfl
  case drawvAlign =>
    refine assembleLine_of_some rfl (.cons (isToken_alignText align) .nil) ?_ rfl
    exact congrArg (Option.map fun x => [Instr.drawv false x]) (alignOperand_alignText align)

end Sys2Proof.Machine
end

section
/-! Proofs of the statements of 41_font_table.md: the supported characters and their glyphs (R90, R94), the width of a
glyph (R92), and the two commands that report a width or a row (R95, R96). -/

namespace Sys2Proof.Machine

open Sys2Proof.Spec

/-! ### The supported characters -/

/-- A code with a place in the font is one of the table's (R90). -/
theorem mem_supportedCodes_of_fontSlot {c : Byte} {k : Fin fontChars} (h : fontSlot c = some k) :
    c ∈ supportedCodes := by
  suffices hmem : BitVec.ofNat 8 c.toNat ∈ supportedCodes by rwa [BitVec.ofNat_toNat, BitVec.setWidth_eq] at hmem
  unfold fontSlot at h
  split at h
  case h_16 => cases h
  all_goals next hc => rw [hc]; decide

/-- Exactly the table's codes have a place in the font (R14, R90). -/
theorem supported_iff_mem (c : Byte) : supported c = true ↔ c ∈ supportedCodes := by
  rw [supported, Option.isSome_iff_exists]
  constructor
  · rintro ⟨k, hk⟩
    exact mem_supportedCodes_of_fontSlot hk
  · intro hc
    have hmem : fontSlot c ∈ (List.finRange fontChars).map some :=
      map_fontSlot_supportedCodes ▸ List.mem_map_of_mem hc
    obtain ⟨k, -, hk⟩ := List.mem_map.1 hmem
    exact ⟨k, hk.symm⟩

/-- Exactly the codes outside the table are not found (R94). -/
theorem lookup_eq_none_iff (cfg : Config) (c : Byte) : lookup cfg c = none ↔ c ∉ supportedCodes := by
  rw [← Option.not_isSome_iff_eq_none, lookup_isSome, supported_iff_mem]

/-- Code `k` of the table finds glyph `k` of the font. -/
theorem lookup_of_getElem? (cfg : Config) {c : Byte} {k : Nat} (h : supportedCodes[k]? = some c) :
    lookup cfg c = cfg.font.toList[k]? := by
  have hk := congrArg (·[k]?) (map_lookup_supportedCodes cfg)
  simp only [List.getElem?_map, h, Option.map_some] at hk
  obtain ⟨g, hg, hc⟩ := Option.map_eq_some_iff.1 hk.symm
  rw [hg, hc]

/-- Settles O30, with the table's order taken from that of the font's places. -/
theorem lookupFindsSupportedCodes : Obligations.LookupFindsSupportedCodes := fun cfg c =>
  ⟨supported_iff_mem c, fun _ h => lookup_of_getElem? cfg h, lookup_eq_none_iff cfg c⟩

/-! ### The width of a glyph -/

/-- In a legal configuration a supported character has a glyph of `FH` rows that fit `GBITS` bits (R8, R91). -/
theorem exists_glyph {cfg : Config} {c : Byte} (hcfg : cfg.Wf) (hc : c ∈ supportedCodes) :
    ∃ rows, lookup cfg c = some rows ∧ rows.length = cfg.fontHeight ∧ ∀ r ∈ rows, r < 2 ^ cfg.glyphBits := by
  obtain ⟨-, -, -, -, -, hfont, -⟩ := hcfg
  exact (forall_lookup_iff_forall_font cfg _).2 hfont c hc

/-- A glyph's rows are at most 32 bits wide (R7). -/
theorem glyphBits_le {cfg : Config} (hcfg : cfg.Wf) : cfg.glyphBits ≤ 32 := by
  obtain ⟨-, -, -, -, ⟨-, hbits⟩, -⟩ := hcfg
  exact hbits

/-- `rowsWidth` is the least number of bits that holds every row (R92). -/
theorem rowsWidth_le_iff (rows : List Nat) (n : Nat) : rowsWidth rows ≤ n ↔ ∀ r ∈ rows, r < 2 ^ n := by
  constructor
  · intro h r hr
    exact (bitlen_le_iff r n).1 ((bitlen_le_rowsWidth hr).trans h)
  · intro h
    rcases rowsWidth_attained rows with h0 | ⟨r, hr, hw⟩
    · omega
    · rw [← hw]
      exact (bitlen_le_iff r n).2 (h r hr)

/-- Bit `bitlen(m) - 1` of a number that is not 0 is its highest set bit (R11). -/
theorem testBit_bitlen_sub_one {m : Nat} (h : bitlen m ≠ 0) : m.testBit (bitlen m - 1) = true := by
  have hm : m ≠ 0 := fun hm => h (if_pos hm)
  rw [bitlen, if_neg hm]
  exact Nat.testBit_log2 hm

/-- Some row sets the highest bit within the width, unless no row sets any (R92). -/
theorem rowsWidth_eq_zero_or_testBit (rows : List Nat) :
    rowsWidth rows = 0 ∨ ∃ r ∈ rows, r.testBit (rowsWidth rows - 1) = true := by
  by_cases h0 : rowsWidth rows = 0
  · exact .inl h0
  · obtain ⟨r, hr, hw⟩ := (rowsWidth_attained rows).resolve_left h0
    rw [← hw] at h0 ⊢
    exact .inr ⟨r, hr, testBit_bitlen_sub_one h0⟩

/-- Settles O31: the width is the least bound on the rows' bits, and one of the rows attains it. -/
theorem glyphWidthIsHighestBit : Obligations.GlyphWidthIsHighestBit := by
  intro cfg c hcfg hc
  obtain ⟨rows, hrows, hlen, hbits⟩ := exists_glyph hcfg hc
  rw [glyphWidth_of_lookup hrows]
  exact ⟨rows, hrows, hlen, hbits, (rowsWidth_le_iff rows _).1 le_rfl, rowsWidth_eq_zero_or_testBit rows,
    (rowsWidth_le_iff rows _).2 hbits⟩

/-! ### `GWIDTH` and `GROW` -/

/-- A value that fits `RESULT` is reported as it is, with `FOUND = 1`. -/
theorem State.reportLookup_some (s : State) {v : Nat} (h : v < 2 ^ 32) :
    (s.reportLookup (some v)).found = true ∧ (s.reportLookup (some v)).result.toNat = v :=
  ⟨rfl, Nat.mod_eq_of_lt h⟩

/-- `GWIDTH` of a supported character reports its width (R95). -/
theorem exec_gwidth_of_mem {c : Byte} (hc : c ∈ supportedCodes) (s : State) :
    exec (.gwidth c) s = .next ((s.reportLookup (some (glyphWidth s.cfg c))).finish .none) := by
  rw [exec, execGwidth, if_pos ((supported_iff_mem c).2 hc)]

/-- `GWIDTH` of any other character reports "not found" (R95). -/
theorem exec_gwidth_of_not_mem {c : Byte} (hc : c ∉ supportedCodes) (s : State) :
    exec (.gwidth c) s = .next ((s.reportLookup none).finish .none) := by
  rw [exec, execGwidth, if_neg (mt (supported_iff_mem c).1 hc)]

/-- Settles O32: a width of at most `GBITS` bits fits `RESULT`. -/
theorem gwidthReportsWidth : Obligations.GwidthReportsWidth := by
  refine ⟨fun w => decode_gwidth, fun c s hcfg => ?_⟩
  by_cases hc : c ∈ supportedCodes
  · obtain ⟨rows, -, -, -, -, -, hwidth⟩ := glyphWidthIsHighestBit s.cfg c hcfg hc
    have hfit : glyphWidth s.cfg c < 2 ^ 32 := (hwidth.trans (glyphBits_le hcfg)).trans_lt (by decide)
    exact ⟨_, exec_gwidth_of_mem hc s, fun _ => s.reportLookup_some hfit, fun h => absurd hc h, rfl⟩
  · exact ⟨_, exec_gwidth_of_not_mem hc s, fun h => absurd h hc, fun _ => ⟨rfl, rfl⟩, rfl⟩

/-- `GROW` of a row that a supported character has reports that row (R96). -/
theorem exec_grow_of_mem {row c : Byte} {s : State} {rows : List Nat} (hrows : lookup s.cfg c = some rows)
    (hrow : row.toNat < s.cfg.fontHeight) :
    exec (.grow row c) s = .next ((s.reportLookup (some (glyphRow rows row.toNat))).finish .none) := by
  have hc : supported c = true := by rw [← lookup_isSome s.cfg c, hrows, Option.isSome_some]
  rw [exec, execGrow, if_pos ⟨hc, hrow⟩, hrows, Option.getD_some]

/-- `GROW` of any other row or character reports "not found" (R96). -/
theorem exec_grow_of_not_found {row c : Byte} {s : State}
    (h : ¬ (c ∈ supportedCodes ∧ row.toNat < s.cfg.fontHeight)) :
    exec (.grow row c) s = .next ((s.reportLookup none).finish .none) := by
  rw [← supported_iff_mem] at h
  rw [exec, execGrow, if_neg h]

/-- A glyph's row is the entry of its list of rows. -/
theorem getElem?_eq_glyphRow {rows : List Nat} {r : Nat} (h : r < rows.length) : rows[r]? = some (glyphRow rows r) := by
  rw [glyphRow, List.getD_eq_getElem _ _ h, List.getElem?_eq_getElem h]

/-- Settles O33: a row of `GBITS` bits fits `RESULT`. -/
theorem growReportsRow : Obligations.GrowReportsRow := by
  refine ⟨fun w => decode_grow, fun row c s hcfg => ?_⟩
  by_cases h : c ∈ supportedCodes ∧ row.toNat < s.cfg.fontHeight
  · obtain ⟨hc, hrow⟩ := h
    obtain ⟨rows, hrows, hlen, hbits⟩ := exists_glyph hcfg hc
    have hget := getElem?_eq_glyphRow (hlen ▸ hrow)
    have hfit : glyphRow rows row.toNat < 2 ^ 32 :=
      (hbits _ (List.mem_of_getElem? hget)).trans_le (Nat.pow_le_pow_right two_pos (glyphBits_le hcfg))
    obtain ⟨hfound, hresult⟩ := s.reportLookup_some hfit
    rw [← hresult] at hget
    exact ⟨_, exec_grow_of_mem hrows hrow, fun _ _ => ⟨hfound, rows, hrows, hget⟩,
      fun hn => (hn.elim (· hc) hrow.not_ge).elim, rfl⟩
  · exact ⟨_, exec_grow_of_not_found h, fun hc hrow => absurd ⟨hc, hrow⟩ h, fun _ => ⟨rfl, rfl⟩, rfl⟩

end Sys2Proof.Machine
end

section
/-! Proofs of the statements of 42_framebuffer.md: packed colours (R100, R101), the commands that write the framebuffer
or `COLOR` (R105 to R109), and the configuration that no step changes (R110). -/

namespace Sys2Proof.Machine

open Sys2Proof.Spec

/-! ### Packed colours -/

/-- A packed colour as a sum: green high, red in the middle, blue low (R100). -/
theorem packColor_toNat (g r b : Byte) :
    (packColor g r b).toNat = g.toNat * 2 ^ 16 + r.toNat * 2 ^ 8 + b.toNat := by
  rw [packColor, toNat_concat, toNat_concat]
  omega

/-- Packing the three lowest bytes of a word yields its low 24 bits. -/
theorem packColor_extractLsb' {n : Nat} (w : BitVec n) :
    packColor (w.extractLsb' 16 8) (w.extractLsb' 8 8) (w.extractLsb' 0 8) = w.extractLsb' 0 24 := by
  have hhigh : w.extractLsb' 16 8 ++ w.extractLsb' 8 8 = w.extractLsb' 8 16 :=
    BitVec.extractLsb'_append_extractLsb'_eq_extractLsb' (start₁ := 8) (len₁ := 8) rfl
  rw [packColor, hhigh]
  exact BitVec.extractLsb'_append_extractLsb'_eq_extractLsb' (start₁ := 0) (len₁ := 8) rfl

/-- Unpacking recovers the channels of a packed colour (R101). -/
theorem unpackColor_packColor (g r b : Byte) : unpackColor (packColor g r b) = (r, g, b) := by
  have hred : (packColor g r b).extractLsb' 8 8 = r := by
    rw [packColor, BitVec.extractLsb'_append_eq_of_le le_rfl, BitVec.extractLsb'_append_eq_right]
  have hgreen : (packColor g r b).extractLsb' 16 8 = g := by
    rw [packColor, BitVec.extractLsb'_append_eq_of_le (by decide), BitVec.extractLsb'_append_eq_left]
  have hblue : (packColor g r b).extractLsb' 0 8 = b := BitVec.extractLsb'_append_eq_right
  rw [unpackColor, hred, hgreen, hblue]

/-- Packing recovers an unpacked colour (R101). -/
theorem packColor_unpackColor (w : Color) :
    packColor (unpackColor w).2.1 (unpackColor w).1 (unpackColor w).2.2 = w :=
  (packColor_extractLsb' w).trans BitVec.extractLsb'_eq_self

/-- Settles O25: the sum and both round trips. -/
theorem packUnpackRoundTrip : Obligations.PackUnpackRoundTrip :=
  ⟨packColor_toNat, unpackColor_packColor, packColor_unpackColor⟩

/-! ### The commands -/

/-- Settles O24: the operands are the three low bytes of the word, and `COLOR` takes their packed value. -/
theorem setcolorLoadsColor : Obligations.SetcolorLoadsColor :=
  ⟨fun w hw => ⟨_, _, _, decode_setcolor hw, packColor_extractLsb' w⟩,
    fun g r b _ => ⟨_, rfl, packColor_toNat g r b, rfl⟩⟩

/-- Settles O26: `SET` is one bounds-checked write. -/
theorem setWritesOneEntry : Obligations.SetWritesOneEntry :=
  ⟨fun _ => decode_set, fun idx s hfb => ⟨_, rfl, read_fbset hfb idx s.color, rfl⟩⟩

/-- Settles O27: `SETXY` is one bounds-checked write at the linear index. -/
theorem setxyWritesLinearIndex : Obligations.SetxyWritesLinearIndex :=
  ⟨fun _ => decode_setxy, fun x y s hfb => ⟨_, rfl, read_fbset hfb (linearIndex s.cfg x y) s.color, rfl⟩⟩

/-- Settles O28: `FILL` leaves a framebuffer filled with `COLOR`. -/
theorem fillWritesEveryEntry : Obligations.FillWritesEveryEntry := by
  refine ⟨decode_encode (i := .fill) rfl, fun s => ⟨_, rfl, fun k hk => ?_, Memory.wf_filled _ s.color, rfl⟩⟩
  exact (Memory.read_filled _ s.color k).trans (if_pos hk)

/-- A framebuffer filled with packed black reads 0 at every index, the listed ones and those from `N` up (R109). -/
theorem read_filled_black (n k : Nat) : (Memory.filled n (packColor 0 0 0)).read k = 0 :=
  (Memory.read_filled n _ k).trans (ite_self _)

/-- Settles O29: `CLEAR` leaves a framebuffer filled with packed black, which is also what `FILL` leaves once
`SETCOLOR 0,0,0` has loaded that colour. -/
theorem clearWritesBlackAndKeepsColor : Obligations.ClearWritesBlackAndKeepsColor :=
  ⟨decode_encode (i := .clear) rfl, fun s =>
    ⟨_, rfl, read_filled_black s.cfg.pixels, Memory.wf_filled _ (packColor 0 0 0), rfl, _, _, rfl, rfl, rfl⟩⟩

/-! ### The configuration -/

/-- Settles O18: no agent writes the configuration in its turn, as `step_cfg` shows agent by agent. -/
theorem configurationNeverChanges : Obligations.ConfigurationNeverChanges := fun _ _ => step_cfg

end Sys2Proof.Machine
end

section
/-! Proofs of the statements of 43_glyph_renderer.md: the value register and its string (R122 to R129), the layout of a
string (R130, R131), and the drawing commands (R120, R121, R132 to R136). -/

namespace Sys2Proof.Machine

open Sys2Proof.Spec

/-! ### Loading the value register -/

/-- Settles O35: the command's word decodes, and its meaning is one record update. -/
theorem vnoneSetsOtherKind : Obligations.VnoneSetsOtherKind :=
  ⟨decode_encode (i := .vnone) rfl, fun _ => ⟨_, rfl, rfl⟩⟩

/-- Settles O36: the characters of a string of length 0 are none, whatever the buffer holds. -/
theorem vstrSetsEmptyString : Obligations.VstrSetsEmptyString :=
  ⟨decode_encode (i := .vstr) rfl, fun _ => ⟨_, rfl, rfl, List.take_zero⟩⟩

/-- Settles O38: an immediate of 24 bits is the value of its 32-bit extension. -/
theorem vintLoadsImmediate : Obligations.VintLoadsImmediate := by
  refine ⟨fun w => decode_vint, fun imm s himm => ⟨_, rfl, ?_, rfl⟩⟩
  have hrange : fitsSigned 24 imm := of_decide_eq_true himm
  exact toInt_ofInt_of_fitsSigned hrange

/-- A write to the text buffer replaces one entry and keeps those around it. -/
theorem toList_setIfInBounds {n i : Nat} (hi : i < n) (v : Vector Byte n) (c : Byte) :
    (v.setIfInBounds i c).toList = v.toList.take i ++ [c] ++ v.toList.drop (i + 1) := by
  have hlen : i < v.toList.length := by simpa using hi
  have hset : (v.setIfInBounds i c).toList = v.toList.set i c := by simp
  rw [hset, List.set_eq_take_append_cons_drop, if_pos hlen]
  simp

/-- A character pushed onto a string leaves its kind. -/
theorem State.pushChar_of_str {s : State} (hs : s.vkind = .str) (i : Nat) (c : Byte) :
    s.pushChar i c = { s with text := s.text.setIfInBounds i c, tlen := i + 1 } := by
  rw [State.pushChar, ← hs]

/-- Settles O37, case by case of the value: of another kind, a string with room, a full string. -/
theorem vpushAppendsOrOverflows : Obligations.VpushAppendsOrOverflows := by
  refine ⟨fun w => decode_vpush, fun c s _ => ?_⟩
  by_cases hs : s.vkind = .str
  · by_cases hl : s.tlen = textMax
    · exact ⟨_, execVpush_full hs hl c, fun h => absurd hs h, fun _ h => absurd hl h.ne, fun _ _ => rfl⟩
    · refine ⟨_, execVpush_append hs hl c, fun h => absurd hs h, fun _ hroom => ⟨?_, ?_⟩, fun _ h => absurd h hl⟩
      · rw [State.pushChar_of_str hs]
        rfl
      · exact toList_setIfInBounds hroom s.text c
  · have htext := toList_setIfInBounds (by decide : 0 < textMax) s.text c
    exact ⟨_, execVpush_new hs c, fun _ => ⟨rfl, htext⟩, fun h => absurd h hs, fun h => absurd h hs⟩

/-! ### `can_render` -/

/-- The model's `can_render` is the specification's (R128). -/
theorem canRender_iff_renderable (s : State) : canRender s = true ↔ renderable s := by
  unfold canRender renderable
  cases hs : s.vkind with
  | none => simp
  | str => simp [textChars, supported_iff_mem]
  | int => simp

/-- Settles O39: `CANR` writes `can_render`. -/
theorem canrComputesCanRender : Obligations.CanrComputesCanRender :=
  ⟨decode_encode (i := .canr) rfl, fun s => ⟨_, rfl, canRender_iff_renderable s, rfl⟩⟩

/-! ### The decimal string -/

/-- The code of a decimal digit is its value above the code of `0` (R90). -/
theorem digitCode_toNat {d : Nat} (h : d < 10) : (digitCode d).toNat = 0x30 + d := by
  rw [digitCode, BitVec.toNat_ofNat]
  omega

/-- One digit of a number below ten is its decimal form. -/
theorem decDigits_of_lt {n : Nat} (h : n < 10) (fuel : Nat) : decDigits (fuel + 1) n = [digitCode n] := if_pos h

/-- Any other number's decimal form ends in its last digit. -/
theorem decDigits_of_le {n : Nat} (h : 10 ≤ n) (fuel : Nat) :
    decDigits (fuel + 1) n = decDigits fuel (n / 10) ++ [digitCode (n % 10)] := if_neg h.not_gt

/-- One more digit on the right: ten times the number and the digit. -/
theorem digitsNumber_append_digit (ds : List Byte) {d : Nat} (h : d < 10) :
    digitsNumber (ds ++ [digitCode d]) = 10 * digitsNumber ds + d := by
  rw [digitsNumber, List.foldl_append, List.foldl_cons, List.foldl_nil, digitCode_toNat h, Nat.add_sub_cancel_left]
  rfl

/-- A single digit writes its value. -/
theorem digitsNumber_digit {d : Nat} (h : d < 10) : digitsNumber [digitCode d] = d :=
  (digitsNumber_append_digit [] h).trans (Nat.zero_add d)

/-- A single digit is canonical. -/
theorem canonicalDigits_digit {d : Nat} (h : d < 10) : canonicalDigits [digitCode d] := by
  refine ⟨List.cons_ne_nil _ _, fun b hb => ?_, fun hz => congrArg (· :: []) (Option.some.inj hz)⟩
  rw [List.mem_singleton.1 hb, digitCode_toNat h]
  omega

/-- A canonical run that does not write 0 stays canonical with one more digit on the right. -/
theorem canonicalDigits_append_digit {ds : List Byte} (hds : canonicalDigits ds) (hpos : digitsNumber ds ≠ 0)
    {d : Nat} (h : d < 10) : canonicalDigits (ds ++ [digitCode d]) := by
  obtain ⟨hne, hcodes, hzero⟩ := hds
  obtain ⟨-, hcode, -⟩ := canonicalDigits_digit h
  refine ⟨List.append_ne_nil_of_left_ne_nil hne _, fun b hb => ?_, fun hz => ?_⟩
  · exact (List.mem_append.1 hb).elim (hcodes b) (hcode b)
  · rw [List.head?_append_of_ne_nil _ hne] at hz
    exact absurd (congrArg digitsNumber (hzero hz)) hpos

/-- A number below ten is written by its one digit. -/
theorem decDigits_canonical_of_lt {n : Nat} (h : n < 10) (fuel : Nat) :
    canonicalDigits (decDigits (fuel + 1) n) ∧ digitsNumber (decDigits (fuel + 1) n) = n := by
  rw [decDigits_of_lt h]
  exact ⟨canonicalDigits_digit h, digitsNumber_digit h⟩

/-- Of a number with at most `fuel + 1` digits, the decimal form is canonical and writes the number (R127). -/
theorem decDigits_canonical (fuel : Nat) {n : Nat} (h : n < 10 ^ (fuel + 1)) :
    canonicalDigits (decDigits (fuel + 1) n) ∧ digitsNumber (decDigits (fuel + 1) n) = n := by
  induction fuel generalizing n with
  | zero => exact decDigits_canonical_of_lt h 0
  | succ fuel ih =>
    by_cases hn : n < 10
    · exact decDigits_canonical_of_lt hn (fuel + 1)
    · obtain ⟨hcanonical, hnumber⟩ := ih (n := n / 10) (by rw [pow_succ] at h; omega)
      have hd : n % 10 < 10 := Nat.mod_lt _ (by decide)
      rw [decDigits_of_le (Nat.le_of_not_lt hn), digitsNumber_append_digit _ hd, hnumber]
      exact ⟨canonicalDigits_append_digit hcanonical (by omega) hd, Nat.div_add_mod n 10⟩

/-- Ten digits hold the magnitude of a 32-bit integer. -/
theorem natAbs_toInt_lt (v : BitVec 32) : v.toInt.natAbs < 10 ^ 10 := by
  have hlow := v.le_toInt
  have hhigh := v.toInt_lt
  omega

/-- The string of an integer value is the sign that R127 asks for and the digits of the magnitude. -/
theorem strOf_of_int {s : State} (h : s.vkind = .int) (sign : Bool) :
    strOf s sign =
      (if s.vint.toInt < 0 then [0x2D] else if sign then [0x2B] else []) ++ decDigits 10 s.vint.toInt.natAbs := by
  rw [strOf, h]
  by_cases hv : s.vint.toInt < 0
  · simp [dec, hv, Int.not_le.2 hv, minusCode]
  · simp [dec, hv, Int.not_lt.1 hv, plusCode]

/-- Settles O40: by the digits' induction for an integer, by definition for a string. -/
theorem valueStringIsDecimal : Obligations.ValueStringIsDecimal := by
  intro s sign
  refine ⟨fun hs => by rw [strOf, hs]; rfl, fun hs => ?_⟩
  obtain ⟨hcanonical, hnumber⟩ := decDigits_canonical 9 (natAbs_toInt_lt s.vint)
  exact ⟨_, hcanonical, hnumber, strOf_of_int hs sign⟩

/-! ### The start column -/

/-- Halving the successor rounds a half up, as the ceiling in the rationals does. -/
theorem ceil_half (a : Int) : ⌈(a : ℚ) / 2⌉ = (a + 1) / 2 := by
  have hceil : ⌈(a : ℚ) / 2⌉ = -(-a / 2) := Rat.ceil_intCast_div_natCast a 2
  omega

/-- The model's start column is the specification's (R131). -/
theorem startX_eq_startColumn (cfg : Config) (align : Align) (tw : Int) :
    startX cfg align tw = startColumn cfg.width align tw := by
  cases align with
  | left | right => rfl
  | center => rw [startX, startColumn, ceil_half]

/-- Settles O41: with the ceiling as a quotient the rest is integer arithmetic. -/
theorem startColumnByAlignment : Obligations.StartColumnByAlignment := by
  intro cfg align tw
  refine ⟨startX_eq_startColumn cfg align tw, ?_, ?_⟩
  · rintro rfl
    cases align <;> simp [startX]
  · rintro rfl hfit hodd
    rw [startX, if_neg hfit.not_gt]
    omega

/-! ### Which entries painting lights -/

/-- The pixels that painting a glyph lights are those that R120 names: a character without a glyph has none. -/
theorem glyphLights_iff_litAt (cfg : Config) (c : Byte) (x : Int) (k : Nat) :
    glyphLights cfg c x k ↔ litAt cfg c x k := by
  refine and_congr_right fun _ => ?_
  cases hrows : lookup cfg c with
  | none => simp [mem_litPixels, rowsWidth]
  | some rows =>
    simp only [glyphWidth_of_lookup hrows, mem_litPixels, Option.getD_some, Option.some.injEq, exists_eq_left',
      Prod.exists, and_assoc]
    rfl

/-- The first glyph stands at the start column. -/
@[simp] theorem columnOf_zero (cfg : Config) (str : List Byte) (x : Int) : columnOf cfg str x 0 = x := by
  simp [columnOf]

/-- The other glyphs stand as those of the rest of the string, laid out past the first glyph and its spacing column. -/
@[simp] theorem columnOf_cons_succ (cfg : Config) (c : Byte) (rest : List Byte) (x : Int) (i : Nat) :
    columnOf cfg (c :: rest) x (i + 1) = columnOf cfg rest (x + glyphWidth cfg c + 1) i := by
  simp only [columnOf, List.take_succ_cons, List.map_cons, List.sum_cons]
  ring

/-- A lit pixel of a string is one of its first glyph or of the rest, laid out past that glyph. -/
theorem litInString_cons (cfg : Config) (c : Byte) (rest : List Byte) (x : Int) (k : Nat) :
    litInString cfg (c :: rest) x k ↔ litAt cfg c x k ∨ litInString cfg rest (x + glyphWidth cfg c + 1) k := by
  constructor
  · rintro ⟨_ | i, d, hd, hlit⟩
    · cases hd
      exact .inl (columnOf_zero cfg _ x ▸ hlit)
    · exact .inr ⟨i, d, hd, columnOf_cons_succ cfg c rest x i ▸ hlit⟩
  · rintro (hlit | ⟨i, d, hd, hlit⟩)
    · exact ⟨0, c, rfl, (columnOf_zero cfg _ x).symm ▸ hlit⟩
    · exact ⟨i + 1, d, hd, (columnOf_cons_succ cfg c rest x i).symm ▸ hlit⟩

/-- The pixels that painting a string lights are those under its glyphs at their running columns (R132). -/
theorem stringLights_iff_litInString (cfg : Config) (str : List Byte) (x : Int) (k : Nat) :
    stringLights cfg str x k ↔ litInString cfg str x k := by
  induction str generalizing x with
  | nil => simp [stringLights, litInString]
  | cons c rest ih => rw [stringLights, litInString_cons, glyphLights_iff_litAt, ih]

/-- `paint_glyph` paints the entries that R120 names. -/
theorem paints_litAt {cfg : Config} {m : Memory} (hm : Memory.wf cfg.pixels m) (c : Byte) (x : Int) (v : Color) :
    Paints cfg.pixels v (litAt cfg c x) m (paintGlyph cfg c x v m) :=
  (paints_paintGlyph hm c x v).congr (glyphLights_iff_litAt cfg c x)

/-- `paint_string` paints the entries that R132 names. -/
theorem paints_litInString {cfg : Config} {m : Memory} (hm : Memory.wf cfg.pixels m) (str : List Byte) (x : Int)
    (v : Color) : Paints cfg.pixels v (litInString cfg str x) m (paintString cfg v str x m) :=
  (paints_paintString v str x hm).congr (stringLights_iff_litInString cfg str x)

/-- An entry reads otherwise after painting only if it is lit. -/
theorem Paints.lit_of_read_ne {n : Nat} {v : Color} {lit : Nat → Prop} {m m' : Memory} (h : Paints n v lit m m')
    {k : Nat} (hk : m'.read k ≠ m.read k) : k < n ∧ lit k := by
  obtain ⟨-, -, hrest⟩ := h
  exact not_not.1 fun hn => hk (hrest k hn)

/-- Painting leaves an entry or gives it the colour (R136). -/
theorem Paints.read_eq_or_eq {n : Nat} {v : Color} {lit : Nat → Prop} {m m' : Memory} (h : Paints n v lit m m')
    (k : Nat) : m'.read k = m.read k ∨ m'.read k = v := by
  refine or_iff_not_imp_left.2 fun hk => ?_
  obtain ⟨hn, hlit⟩ := h.lit_of_read_ne hk
  obtain ⟨-, hcolor, -⟩ := h
  exact hcolor k hn hlit

/-- Settles O45: a lit pixel is one of a glyph whose own column is not negative. -/
theorem leftOverflowSkipsWholeGlyphs : Obligations.LeftOverflowSkipsWholeGlyphs := by
  intro cfg v str x m k hm
  have hpaint := paints_litInString hm str x v
  refine ⟨fun hk => ?_, fun i c hc _ hn hlit => ?_⟩
  · obtain ⟨-, i, c, hc, hlit⟩ := hpaint.lit_of_read_ne hk
    obtain ⟨hcol, -⟩ := id hlit
    exact ⟨i, c, hc, hcol, hlit⟩
  · obtain ⟨-, hcolor, -⟩ := hpaint
    exact hcolor k hn ⟨i, c, hc, hlit⟩

/-! ### The drawing commands -/

/-- `DRAWG` paints the lit entries of the glyph; a character without a glyph has none (R121). -/
theorem exec_drawg {s : State} (hfb : Memory.wf s.cfg.pixels s.fb) (x : Int) (c : Byte) :
    ∃ m, Paints s.cfg.pixels s.color (litAt s.cfg c x) s.fb m ∧
      exec (.drawg x c) s = .next { s with found := supported c, fb := m, err := .none } := by
  refine ⟨_, ?_, execDrawg_eq x c s⟩
  by_cases hc : supported c = true
  · rw [if_pos hc]
    exact paints_litAt hfb c x s.color
  · rw [if_neg hc]
    refine (Paints.refl hfb).congr fun k => ⟨False.elim, fun ⟨_, rows, hrows, _⟩ => hc ?_⟩
    rw [← lookup_isSome s.cfg c, hrows, Option.isSome_some]

/-- Settles O34: `FOUND` says whether the character is in the table, and the glyph's lit entries are painted. -/
theorem drawgPaintsLitPixels : Obligations.DrawgPaintsLitPixels := by
  refine ⟨fun w => decode_drawg, fun x c s hfb => ?_⟩
  obtain ⟨m, ⟨-, hcolor, hrest⟩, hexec⟩ := exec_drawg hfb x c
  exact ⟨_, hexec, supported_iff_mem c, hcolor, hrest, rfl⟩

/-- A word with the row of `DRAWV`, whose low bits are an alignment's code, decodes (R80). -/
theorem decode_drawv_of_low2 {w : Word} (h : w &&& 0xFFFFFFF8 = 0xD0000000) {align : Align}
    (hcode : low2 w = (alignCode align).toNat) : decode w = .ok (.drawv (w.getLsbD 2) align) := by
  have hfield : wordField w 0 2 = alignCode align := BitVec.eq_of_toNat_eq ((low2_eq w).symm.trans hcode)
  have halign : alignField (alignCode align) = .ok align := by cases align <;> rfl
  rw [decode_of_isRow (k := 0xD) h (by decide), fieldCommand, hfield, halign]
  rfl

/-- The total width as R130 sums it in the integers. -/
theorem totalWidth_eq (cfg : Config) (str : List Byte) :
    totalWidth cfg str = (str.map (fun c => (glyphWidth cfg c : Int))).sum + ((str.length : Int) - 1) := by
  rw [totalWidth, Nat.cast_list_sum, List.map_map]
  rfl

/-- `DRAWV` of a value that cannot be rendered only reports so (R133). -/
theorem exec_drawv_of_not_renderable {s : State} (h : ¬ renderable s) (sign : Bool) (align : Align) :
    exec (.drawv sign align) s = .next { s with canr := false, err := .unrenderable } := by
  have hcan : canRender s = false := Bool.eq_false_iff.2 (mt (canRender_iff_renderable s).1 h)
  rw [exec, execDrawv_eq, hcan]
  rfl

/-- `DRAWV` of any other value paints its string (R133). -/
theorem exec_drawv_of_renderable {s : State} (h : renderable s) (sign : Bool) (align : Align) :
    exec (.drawv sign align) s = .next { s with
      canr := true
      fb := paintString s.cfg s.color (strOf s sign) (startX s.cfg align (totalWidth s.cfg (strOf s sign))) s.fb
      err := .none } := by
  rw [exec, execDrawv_eq, (canRender_iff_renderable s).2 h]
  rfl

/-- Settles O43: the specification's total width and start column are the model's, and from there the string is painted. -/
theorem drawvPaintsTheString : Obligations.DrawvPaintsTheString := by
  refine ⟨fun w hw => ⟨decode_drawv_of_low2 (align := .left) hw, decode_drawv_of_low2 (align := .right) hw,
    decode_drawv_of_low2 (align := .center) hw⟩, fun sign align s hfb => ?_⟩
  by_cases hr : renderable s
  · refine ⟨_, exec_drawv_of_renderable hr sign align, fun h => absurd hr h, fun _ => ⟨rfl, ?_⟩⟩
    rintro str x rfl rfl
    rw [← totalWidth_eq, ← startX_eq_startColumn]
    obtain ⟨-, hcolor, hrest⟩ := paints_litInString hfb (strOf s sign)
      (startX s.cfg align (totalWidth s.cfg (strOf s sign))) s.color
    exact ⟨hcolor, hrest⟩
  · exact ⟨_, exec_drawv_of_not_renderable hr sign align, fun _ => rfl, fun h => absurd h hr⟩

/-- Settles O44: what either command does to the framebuffer is painting with `COLOR`. -/
theorem drawingOnlyAddsPixels : Obligations.DrawingOnlyAddsPixels := by
  intro i s t hi hfb h
  refine ⟨exec_keeps_fb_wf hfb h, fun k => ?_⟩
  rcases hi with ⟨x, c, rfl⟩ | ⟨sign, align, rfl⟩
  · obtain ⟨m, hm, hexec⟩ := exec_drawg hfb x c
    cases hexec.symm.trans h
    exact hm.read_eq_or_eq k
  · by_cases hr : renderable s
    · cases (exec_drawv_of_renderable hr sign align).symm.trans h
      exact (paints_litInString hfb _ _ s.color).read_eq_or_eq k
    · cases (exec_drawv_of_not_renderable hr sign align).symm.trans h
      exact .inl rfl

end Sys2Proof.Machine
end

section
/-! Proofs of the statements of 44_bitstream_encoder.md: `TRANSMIT` (R156), the slot step (R157 to R159), the frame on the
wire (R151 to R155, R166), and the settling interval with its latch count (R160, R161). -/

namespace Sys2Proof.Machine

open Sys2Proof.Spec

/-! ### `TRANSMIT` and the slot step -/

/-- Settles O47: the word is the encoding of `TRANSMIT`, which writes the serializer and `ERR`. -/
theorem transmitStartsWaiting : Obligations.TransmitStartsWaiting :=
  ⟨decode_encode (i := .transmit) rfl, fun _ => ⟨_, rfl, rfl, rfl⟩⟩

/-- Slot step in `IDLE`: the latch count stays at 0 once it is there (R157). -/
theorem slotStep_idle {s : State} (hs : s.serState = .idle) :
    slotStep s = { s with dout := false, latchCnt := s.latchCnt - 1 } := by
  simp [slotStep, hs, slotIdle]

/-- Settles O48, state by state of the serializer. -/
theorem slotStepByState : Obligations.SlotStepByState := fun _ =>
  ⟨slotStep_idle, fun hs => slotStep_settling (by simp [hs]), slotStep_start, slotStep_last, slotStep_send⟩

/-! ### The frame on the wire -/

/-- The last slot of a frame carries bit 0 of the last pixel (R154). -/
theorem frameLevel_last (m : Memory) {n : Nat} (hn : 0 < n) :
    frameLevel m (240 * n - 1) = (m.read (n - 1)).getLsbD 0 := by
  have hslot : 240 * n - 1 = 240 * (n - 1) + (10 * 23 + 9) := by omega
  rw [hslot, frameLevel_of_slot m (n - 1) (by decide) (by decide)]
  rfl

/-- From its first slot on, a frame leads to `IDLE` with the settling interval loaded and its last level on the line
(R159, R160). -/
theorem slotSteps_frame {s : State} (hs : s.serState = .send) (hk : s.serK = 0) (hn : 0 < s.cfg.pixels) :
    slotSteps (240 * s.cfg.pixels) s =
      { s with serState := .idle, serK := 0, latchCnt := latchSlots,
               dout := (s.fb.read (s.cfg.pixels - 1)).getLsbD 0 } := by
  obtain ⟨n, hframe⟩ : ∃ n, 240 * s.cfg.pixels = n + 1 := Nat.exists_eq_add_one.2 (by omega)
  have hfit : s.serK + n < frameSlots s.cfg := by
    rw [hk, Nat.zero_add]
    exact Nat.lt_of_succ_le hframe.ge
  have hlast : s.serK + n + 1 = frameSlots s.cfg := by
    rw [hk, Nat.zero_add]
    exact hframe.symm
  rw [hframe, slotSteps_succ, slotSteps_send hs n hfit, slotStep_last (by exact hs) hlast, ← frameLevel_last s.fb hn, hframe, hk]
  simp

/-- Settles O49: the settling slots that are left, then the frame. -/
theorem frameOnTheWire : Obligations.FrameOnTheWire := by
  intro s hcfg hs
  refine ⟨wire_of_wait hs, fun _ => busy_slotSteps_of_wait hs, ?_⟩
  have hpixels : 0 < s.cfg.pixels := Nat.pos_of_mul_pos_left (frameSlots_pos hcfg)
  obtain ⟨n, hframe⟩ : ∃ n, 240 * s.cfg.pixels = n + 1 := Nat.exists_eq_add_one.2 (by omega)
  calc slotSteps (s.latchCnt + 240 * s.cfg.pixels) s
      = slotSteps (240 * s.cfg.pixels) s.settled := by rw [slotSteps_add, slotSteps_latchCnt (by simp [hs])]
    _ = slotSteps (240 * s.cfg.pixels) s.settled.startFrame := by
        rw [hframe]
        exact slotSteps_startFrame (s := s.settled) hs rfl n
    _ = _ := slotSteps_frame (s := s.settled.startFrame) rfl rfl hpixels

/-- The frame of a black framebuffer is the pattern of a logical 0, bit after bit (R166). -/
theorem framePattern_of_black {n : Nat} {m : Memory} (h : ∀ i, i < n → m.read i = 0) :
    framePattern n m = (List.replicate (24 * n) (bitPattern false)).flatten := by
  have hbit : ∀ p ∈ List.range n, ∀ b, (m.read p).getLsbD (23 - b) = false := fun p hp b => by
    rw [h p (List.mem_range.1 hp)]
    exact BitVec.getLsbD_zero
  calc framePattern n m
      = (List.range n).flatMap fun _ => (List.range 24).flatMap fun _ => bitPattern false :=
        List.flatMap_congr fun p hp => List.flatMap_congr fun b _ => by rw [hbit p hp b]
    _ = ((List.range (24 * n)).map fun _ => bitPattern false).flatten := by
        rw [map_range_mul]
        simp [List.flatMap_def, List.flatten_flatten]
    _ = _ := by simp

/-- Settles O50: with no settling slot left the wire carries the frame alone. -/
theorem allBlackFrame : Obligations.AllBlackFrame := by
  intro s _ hs hl hblack
  have hwire := wire_of_wait hs
  rw [hl, Nat.zero_add, framePattern_of_black hblack] at hwire
  exact hwire

/-! ### The settling interval -/

/-- The next slot step sends slot `k` of a frame: the one that `SEND` has reached, or slot 0 in `WAIT` once the settling
interval is over (R158, R159). -/
def State.SendsSlot (s : State) (k : Nat) : Prop :=
  (s.serState = .send ∧ s.serK = k) ∨ (s.serState = .wait ∧ s.latchCnt = 0 ∧ k = 0)

/-- A frame that starts does so from `WAIT`, with no settling slot left. -/
theorem State.SendsSlot.of_ne_send {s : State} {k : Nat} (h : s.SendsSlot k) (hs : s.serState ≠ .send) :
    s.serState = .wait ∧ s.latchCnt = 0 := by
  rcases h with ⟨hsend, -⟩ | ⟨hwait, hl, -⟩
  · exact absurd hsend hs
  · exact ⟨hwait, hl⟩

/-- So no settling slot sends one. -/
theorem State.SendsSlot.not_settling {s : State} {k : Nat} (h : s.SendsSlot k) (hs : s.serState ≠ .send) :
    ¬ 0 < s.latchCnt :=
  (h.of_ne_send hs).2.not_gt

/-- In `SEND` the next slot is the one that the serializer has reached. -/
theorem State.SendsSlot.serK_eq {s : State} {k : Nat} (h : s.SendsSlot k) (hs : s.serState = .send) : s.serK = k := by
  rcases h with ⟨-, hk⟩ | ⟨hwait, -⟩
  · exact hk
  · cases hs.symm.trans hwait

/-- A block that sends a slot is not idle. -/
theorem State.SendsSlot.ne_idle {s : State} {k : Nat} (h : s.SendsSlot k) : s.serState ≠ .idle := by
  rcases h with ⟨hsend, -⟩ | ⟨hwait, -⟩
  · simp [hsend]
  · simp [hwait]

/-- The step that sends slot `k` is the step of `SEND` there, from `WAIT` too (R158). -/
theorem State.SendsSlot.slotStep_eq {s : State} {k : Nat} (h : s.SendsSlot k) :
    slotStep s = slotSend { s with serState := .send, serK := k } := by
  rcases h with ⟨hs, rfl⟩ | ⟨hs, hl, rfl⟩
  · rw [slotStep, hs]
    exact congrArg slotSend (by rw [← hs])
  · simp [slotStep, hs, slotWait, hl]

/-- What a slot step does: a settling slot, an idle slot after them, the last slot of a frame, or another slot of it. -/
theorem slotStep_cases (s : State) :
    (s.serState ≠ .send ∧ 0 < s.latchCnt ∧ slotStep s = { s with dout := false, latchCnt := s.latchCnt - 1 }) ∨
    (s.serState = .idle ∧ s.latchCnt = 0 ∧ slotStep s = { s with dout := false }) ∨
    (∃ k, s.SendsSlot k ∧ k + 1 = frameSlots s.cfg ∧
      slotStep s = { s with dout := frameLevel s.fb k, serState := .idle, serK := 0, latchCnt := latchSlots }) ∨
    (∃ k, s.SendsSlot k ∧ k + 1 ≠ frameSlots s.cfg ∧
      slotStep s = { s with dout := frameLevel s.fb k, serState := .send, serK := k + 1 }) := by
  have hstate : (s.serState ≠ .send ∧ 0 < s.latchCnt) ∨ (s.serState = .idle ∧ s.latchCnt = 0) ∨ ∃ k, s.SendsSlot k := by
    by_cases hsend : s.serState = .send
    · exact .inr (.inr ⟨s.serK, .inl ⟨hsend, rfl⟩⟩)
    rcases Nat.eq_zero_or_pos s.latchCnt with hl | hl
    · cases hs : s.serState with
      | idle => exact .inr (.inl ⟨rfl, hl⟩)
      | wait => exact .inr (.inr ⟨0, .inr ⟨hs, hl, rfl⟩⟩)
      | send => exact absurd hs hsend
    · exact .inl ⟨hsend, hl⟩
  rcases hstate with ⟨hs, hl⟩ | ⟨hs, hl⟩ | ⟨k, hk⟩
  · exact .inl ⟨hs, hl, slotStep_settling hs hl⟩
  · refine .inr (.inl ⟨hs, hl, ?_⟩)
    simp [slotStep_idle hs, hl]
  · by_cases hlast : k + 1 = frameSlots s.cfg
    · exact .inr (.inr (.inl ⟨k, hk, hlast, hk.slotStep_eq.trans (if_pos hlast)⟩))
    · exact .inr (.inr (.inr ⟨k, hk, hlast, hk.slotStep_eq.trans (if_neg hlast)⟩))

/-- A command changes the serializer to `WAIT` or not at all: only `TRANSMIT` writes it (R156). -/
theorem exec_serState {i : Instr} {s t : State} (h : exec i s = .next t) :
    t.serState = s.serState ∨ t.serState = .wait := by
  have hser := (exec_writesOnlyItsItems h).serializer
  cases i with
  | transmit => cases h; exact .inr rfl
  | _ => exact .inl (not_not.1 fun hne => hser (.inl hne))

/-- The host's step leaves the latch count alone and starts no frame: it can only put the serializer in `WAIT`. -/
theorem hostStep_latchCnt_serState {s t : State} (h : hostStep s = .next t) :
    t.latchCnt = s.latchCnt ∧ (t.serState = s.serState ∨ t.serState = .wait) := by
  rcases hostStep_next_cases h with rfl | ⟨off, rfl⟩ | rfl | ⟨w, -, hw⟩
  · exact ⟨rfl, .inl rfl⟩
  · exact ⟨rfl, .inl rfl⟩
  · exact ⟨rfl, .inl rfl⟩
  · rcases acceptCommand_cases w s.popBus with ⟨i, -, he⟩ | ⟨-, he⟩
    · have hexec : exec i s.popBus = .next t := he.symm.trans hw
      exact ⟨(exec_writesOnlyItsItems hexec).latchCnt, exec_serState (s := s.popBus) hexec⟩
    · cases he.symm.trans hw
      exact ⟨rfl, .inl rfl⟩

/-- Settles O53, agent by agent: only the slot clock starts a frame. -/
theorem settlingIntervalIsKept : Obligations.SettlingIntervalIsKept := by
  intro s t h hs
  rcases step_next_cases h with ⟨-, rfl⟩ | ⟨hm, rfl⟩ | ⟨hm, hh⟩
  · rw [slotStep_popTurn]
    rcases slotStep_cases s with ⟨-, -, he⟩ | ⟨hidle, hl, he⟩ | ⟨k, hk, -, he⟩ | ⟨k, hk, -, he⟩ <;> rw [he]
    · exact ⟨fun hsend => absurd hsend hs, fun _ _ => ⟨rfl, rfl⟩⟩
    · exact ⟨fun hsend => absurd hsend hs, fun _ hpos => absurd hl hpos.ne'⟩
    · exact ⟨nofun, fun _ hpos => absurd hpos (hk.not_settling hs)⟩
    · exact ⟨fun _ => (hk.of_ne_send hs).symm, fun _ hpos => absurd hpos (hk.not_settling hs)⟩
  · exact ⟨nofun, fun hslot => nomatch hm.symm.trans hslot⟩
  · refine ⟨fun hsend => ?_, fun hslot => nomatch hm.symm.trans hslot⟩
    rcases (hostStep_latchCnt_serState hh).2 with hkeep | hwait
    · exact absurd (hkeep.symm.trans hsend) hs
    · cases hwait.symm.trans hsend

/-- Settles O54, agent by agent: of the host's steps none changes the latch count. -/
theorem latchTimerChanges : Obligations.LatchTimerChanges := by
  intro s t ⟨_, _, _, _, _, hsendOk⟩ h
  have hzero : s.serState = .send → s.latchCnt = 0 := fun hs => (hsendOk hs).2.1
  rcases step_next_cases h with ⟨hm, rfl⟩ | ⟨hm, rfl⟩ | ⟨hm, hh⟩
  · rw [slotStep_popTurn]
    rcases slotStep_cases s with ⟨hs, hl, he⟩ | ⟨hidle, hl, he⟩ | ⟨k, hk, -, he⟩ | ⟨k, hk, hmore, he⟩ <;> rw [he]
    · exact ⟨fun _ _ _ => rfl, fun _ hne hidle => absurd hidle hne, fun _ hsend => absurd hsend hs, by simp [hm], hzero,
        fun _ => .inl ⟨hm, hs, hl, rfl⟩⟩
    · exact ⟨fun _ _ hpos => absurd hl hpos.ne', fun _ hne => absurd hidle hne, by simp [hidle], by simp [hm], hzero,
        fun hne => absurd rfl hne⟩
    · exact ⟨fun _ hs hpos => absurd hpos (hk.not_settling hs), fun _ _ _ => rfl, fun _ _ _ => rfl, fun _ => rfl,
        hzero, fun _ => .inr (.inl ⟨hm, rfl, hk.ne_idle, rfl⟩)⟩
    · refine ⟨fun _ hs hpos => absurd hpos (hk.not_settling hs), nofun, fun _ hs hend => ?_, by simp [hm], hzero,
        fun hne => absurd rfl hne⟩
      rw [hk.serK_eq hs] at hend
      exact absurd hend hmore
  · exact ⟨by simp [hm], by simp [hm], by simp [hm], fun _ => rfl, hzero, fun _ => .inr (.inr ⟨hm, rfl⟩)⟩
  · obtain ⟨hlatch, -⟩ := hostStep_latchCnt_serState hh
    exact ⟨by simp [hm], by simp [hm], by simp [hm], by simp [hm], hzero, fun hne => absurd hlatch hne⟩

end Sys2Proof.Machine
end

section
/-! Proofs of the statements of 60_exceptions.md: only a refused access stops the machine (R180, R189, R51), and which
command reports which outcome code (R181, R183, R187). -/

namespace Sys2Proof.Machine

open Sys2Proof.Spec

/-! ### Stops -/

/-- At the host's turn the machine makes the host's step. -/
theorem step_of_mover_host {s : State} (h : mover s = .host) : step s = hostStep s.popTurn := by
  rw [step, h]
  rfl

/-- At the turn of the reset input the machine resets. -/
theorem step_of_mover_reset {s : State} (h : mover s = .reset) : step s = .next (resetStep s.popTurn) := by
  rw [step, h]
  rfl

/-- A step of the slot clock or of reset answers a next state. -/
theorem step_next_of_mover_ne_host {s : State} (h : mover s ≠ .host) : ∃ t, step s = .next t := by
  cases hm : mover s with
  | host => exact absurd hm h
  | slot => exact ⟨_, step_of_mover_slot hm⟩
  | reset => exact ⟨_, step_of_mover_reset hm⟩

/-- No command is refused: every one completes (R180). -/
theorem exec_ne_refused (i : Instr) (s : State) (r : Refusal) : exec i s ≠ .refused r := by
  obtain ⟨t, ht⟩ := exec_next i s
  rw [ht]
  exact nofun

/-- Only the host's step can refuse. -/
theorem mover_eq_host_of_refused {s : State} {r : Refusal} (h : step s = .refused r) : mover s = .host := by
  by_contra hm
  obtain ⟨t, ht⟩ := step_next_of_mover_ne_host hm
  cases ht.symm.trans h

/-- Settles O19: a refusal is the host's, and as its command completes, it is of the access (R51). -/
theorem onlyHostAccessesStop : Obligations.OnlyHostAccessesStop := by
  refine ⟨exec_next, fun s => step_next_of_mover_ne_host, fun s r h => ?_⟩
  have hrefused : hostStep s.popTurn = .refused r :=
    (step_of_mover_host (mover_eq_host_of_refused h)).symm.trans h
  exact hostStep_refused_cases hrefused fun i u => exec_ne_refused i u r

/-! ### Outcome codes -/

/-- The code a command reports: `E_NONE`, but for `DRAWV` of a value that cannot be rendered (R183) and for `VPUSH` on a
full string (R125). -/
theorem exec_err_cases {i : Instr} {s t : State} (h : exec i s = .next t) :
    t.err = .none ∨ (t.err = .unrenderable ∧ ¬ renderable s ∧ ∃ sign align, i = .drawv sign align) ∨
    (t.err = .textOvf ∧ s.vkind = .str ∧ s.tlen = textMax ∧ ∃ c, i = .vpush c) := by
  cases i with
  | drawg x c => cases (execDrawg_eq x c s).symm.trans h; exact .inl rfl
  | vpush c =>
    by_cases hs : s.vkind = .str
    · by_cases hl : s.tlen = textMax
      · cases (execVpush_full hs hl c).symm.trans h
        exact .inr (.inr ⟨rfl, hs, hl, c, rfl⟩)
      · cases (execVpush_append hs hl c).symm.trans h
        exact .inl rfl
    · cases (execVpush_new hs c).symm.trans h
      exact .inl rfl
  | drawv sign align =>
    by_cases hr : renderable s
    · cases (exec_drawv_of_renderable hr sign align).symm.trans h
      exact .inl rfl
    · cases (exec_drawv_of_not_renderable hr sign align).symm.trans h
      exact .inr (.inl ⟨rfl, hr, sign, align, rfl⟩)
  | _ => cases h; exact .inl rfl

/-- Settles O23, code by code. -/
theorem outcomeCodesByCommand : Obligations.OutcomeCodesByCommand := by
  intro i s t h
  rcases exec_err_cases h with he | ⟨he, -, hi⟩ | ⟨he, -, -, hi⟩ <;> rw [he]
  · exact ⟨nofun, nofun, nofun⟩
  · exact ⟨nofun, fun _ => hi, nofun⟩
  · exact ⟨nofun, nofun, fun _ => hi⟩

/-- Settles O42: of a renderable value `DRAWV` reports `E_NONE`, and of any other it only reports so. -/
theorem drawvRejectsUnrenderable : Obligations.DrawvRejectsUnrenderable := by
  intro sign align s
  by_cases hr : renderable s
  · exact ⟨_, exec_drawv_of_renderable hr sign align, ⟨nofun, absurd hr⟩, absurd hr⟩
  · exact ⟨_, exec_drawv_of_not_renderable hr sign align, ⟨fun _ => hr, fun _ => rfl⟩, fun _ => rfl⟩

end Sys2Proof.Machine
end

section
/-! Proofs of the statements of 70_reset_and_hazards.md: the reset step (R200, R202), the bound on every wait and every
frame (R206, R214), and the end of the machine's runs with what they leave on the wire (R213, R214). -/

namespace Sys2Proof.Machine

open Sys2Proof.Spec

/-! ### Reset -/

/-- Settles O13: the reset step leads to the reset state of the configuration. -/
theorem resetStepFromAnyState : Obligations.ResetStepFromAnyState := by
  intro s ts ht
  have htext : ∀ k, (Vector.replicate textMax (0 : Byte)).getD k 0 = 0 := fun k => by
    rw [Vector.getD, Vector.toArray_replicate, Array.getD_eq_getD_getElem?, Array.getElem?_replicate]
    split <;> rfl
  exact ⟨_, step_of_turn ht, rfl, rfl, rfl, rfl, rfl, rfl, rfl, rfl, rfl, rfl, htext, rfl, rfl, fun _ => rfl, rfl⟩

/-- Settles O14: `TRANSMIT` waits with the whole settling interval left, and the framebuffer of reset is black. -/
theorem transmitAfterResetWaits : Obligations.TransmitAfterResetWaits := by
  intro c _
  obtain ⟨t, ht, -, rfl⟩ := transmitStartsWaiting.2 (State.resetOf c)
  refine ⟨rfl, _, ht, ?_⟩
  rw [← framePattern_of_black (n := c.pixels) (m := []) fun _ _ => rfl]
  exact wire_of_wait (s := { State.resetOf c with serState := .wait, serK := 0, err := .none }) rfl

/-! ### The end of a wait and of a frame -/

/-- The slots until the block is idle: in `WAIT` the settling slots that are left and a frame, in `SEND` the rest of the
frame. -/
def State.slotsLeft (s : State) : Nat :=
  match s.serState with
  | .idle => 0
  | .wait => s.latchCnt + frameSlots s.cfg
  | .send => frameSlots s.cfg - s.serK

/-! The slots left in each state of the serializer. -/

theorem State.slotsLeft_idle {s : State} (hs : s.serState = .idle) : s.slotsLeft = 0 := by rw [slotsLeft, hs]

theorem State.slotsLeft_wait {s : State} (hs : s.serState = .wait) : s.slotsLeft = s.latchCnt + frameSlots s.cfg := by
  rw [slotsLeft, hs]

theorem State.slotsLeft_send {s : State} (hs : s.serState = .send) : s.slotsLeft = frameSlots s.cfg - s.serK := by
  rw [slotsLeft, hs]

/-- Before slot `k` of a frame goes out, the slots from `k` on are left. -/
theorem State.SendsSlot.slotsLeft_eq {s : State} {k : Nat} (h : s.SendsSlot k) :
    s.slotsLeft = frameSlots s.cfg - k := by
  rcases h with ⟨hs, rfl⟩ | ⟨hs, hl, rfl⟩
  · exact slotsLeft_send hs
  · rw [slotsLeft_wait hs, hl, Nat.zero_add, Nat.sub_zero]

/-- The slot that goes out is one of the frame (R30). -/
theorem State.SendsSlot.lt_frameSlots {s : State} {k : Nat} (h : s.SendsSlot k) (hinv : s.Inv) :
    k < frameSlots s.cfg := by
  obtain ⟨hcfg, -, -, -, -, hsend⟩ := hinv
  rcases h with ⟨hs, rfl⟩ | ⟨-, -, rfl⟩
  · exact (hsend hs).1.2
  · exact frameSlots_pos hcfg

/-- A busy block that is not in `SEND` is in `WAIT`. -/
theorem serState_eq_wait {s : State} (hidle : s.serState ≠ .idle) (hsend : s.serState ≠ .send) :
    s.serState = .wait := by
  cases hs : s.serState with
  | idle => exact absurd hs hidle
  | wait => rfl
  | send => exact absurd hs hsend

/-- Every slot step of a busy block brings it one slot nearer to `IDLE`. -/
theorem slotsLeft_slotStep {s : State} (hinv : s.Inv) (hs : s.serState ≠ .idle) :
    (slotStep s).slotsLeft + 1 = s.slotsLeft := by
  rcases slotStep_cases s with ⟨hsend, hl, he⟩ | ⟨hidle, -⟩ | ⟨k, hk, hlast, he⟩ | ⟨k, hk, hmore, he⟩
  · have hwait := serState_eq_wait hs hsend
    rw [he, State.slotsLeft_wait hwait, State.slotsLeft_wait (by exact hwait)]
    dsimp only
    omega
  · exact absurd hidle hs
  · rw [he, hk.slotsLeft_eq, State.slotsLeft_idle rfl]
    omega
  · have hlt := hk.lt_frameSlots hinv
    rw [he, hk.slotsLeft_eq, State.slotsLeft_send rfl]
    dsimp only
    omega

/-- A wait and its frame are never longer than a whole settling interval and a whole frame. -/
theorem slotsLeft_le {s : State} (hinv : s.Inv) : s.slotsLeft ≤ latchSlots + frameSlots s.cfg := by
  obtain ⟨-, -, -, hlatch, -, -⟩ := hinv
  cases hs : s.serState with
  | idle => rw [State.slotsLeft_idle hs]; omega
  | wait => rw [State.slotsLeft_wait hs]; omega
  | send => rw [State.slotsLeft_send hs]; omega

/-- After the slots that are left the block is idle. -/
theorem serState_slotSteps_slotsLeft {s : State} (hinv : s.Inv) : (slotSteps s.slotsLeft s).serState = .idle := by
  generalize hn : s.slotsLeft = n
  induction n generalizing s with
  | zero =>
    by_contra hs
    have hstep := slotsLeft_slotStep hinv hs
    omega
  | succ n ih =>
    have hs : s.serState ≠ .idle := fun hidle => by
      rw [State.slotsLeft_idle hidle] at hn
      cases hn
    exact ih (slotStep_keeps_inv hinv) (Nat.succ.inj ((slotsLeft_slotStep hinv hs).trans hn))

/-- Settles O51: the slots that are left are that many. -/
theorem everyHoldIsLifted : Obligations.EveryHoldIsLifted := fun s hinv _ =>
  ⟨s.slotsLeft, slotsLeft_le hinv, serState_slotSteps_slotsLeft hinv⟩

/-! ### The end of a run -/

/-- A run that has ended takes no step more. -/
theorem runEnds_zero {s : State} (h : s.ended) : runEnds 0 s s := ⟨rfl, h, fun _ _ hm => absurd hm (Nat.not_lt_zero _)⟩

/-- A run that has not ended goes on with a step. -/
theorem runEnds_succ {n : Nat} {s t u : State} (hs : ¬ s.ended) (hstep : step s = .next u) (h : runEnds n u t) :
    runEnds (n + 1) s t := by
  obtain ⟨hrun, hend, hfirst⟩ := h
  refine ⟨(run_succ_iff n s t).2 ⟨u, hstep, hrun⟩, hend, fun m v hm hv => ?_⟩
  cases m with
  | zero => cases hv; exact hs
  | succ m =>
    obtain ⟨u', hstep', hv⟩ := (run_succ_iff m s v).1 hv
    cases hstep.symm.trans hstep'
    exact hfirst m v (Nat.lt_of_succ_lt_succ hm) hv

/-- Every pending access is one that R51 admits. -/
def State.busAdmitted (s : State) : Prop :=
  ∀ a ∈ s.bus, ∃ off, admitted s.cfg (accessPlace a).1 (accessPlace a).2 off

/-- The host's step takes no access off the bus, or the next one. -/
theorem hostStep_bus {s t : State} (h : hostStep s = .next t) : t.bus = s.bus ∨ t.bus = s.bus.tail := by
  rcases hostStep_next_cases h with rfl | ⟨off, rfl⟩ | rfl | ⟨w, -, hw⟩
  · exact .inl rfl
  · exact .inr rfl
  · exact .inr rfl
  · obtain ⟨t', ht', hbus⟩ := acceptCommand_next w s.popBus
    cases ht'.symm.trans hw
    exact .inr hbus

/-- So no step puts an access on the bus. -/
theorem step_bus {s t : State} (h : step s = .next t) : t.bus = s.bus ∨ t.bus = s.bus.tail := by
  rcases step_next_cases h with ⟨-, rfl⟩ | ⟨-, rfl⟩ | ⟨-, hh⟩
  · rw [slotStep_eq]
    exact .inl rfl
  · exact .inl rfl
  · exact hostStep_bus (s := s.popTurn) hh

/-- Pending accesses stay admitted. -/
theorem step_keeps_busAdmitted {s t : State} (hadm : s.busAdmitted) (h : step s = .next t) : t.busAdmitted := by
  intro a ha
  rw [step_cfg h]
  rcases step_bus h with hb | hb <;> rw [hb] at ha
  · exact hadm a ha
  · exact hadm a (List.mem_of_mem_tail ha)

/-- With admitted accesses pending the host's step is not refused. -/
theorem hostStep_next_of_busAdmitted {s : State} (hadm : s.busAdmitted) : ∃ t, hostStep s = .next t := by
  cases hb : s.bus with
  | nil => exact ⟨s, by rw [hostStep, hb]⟩
  | cons a rest =>
    obtain ⟨off, ho⟩ := hadm a (by rw [hb]; exact List.mem_cons_self)
    exact hostStep_of_ok hb (windowOffset_eq_ok_iff_admitted.2 ho)

/-- So the machine goes on. -/
theorem step_next_of_busAdmitted {s : State} (hadm : s.busAdmitted) : ∃ t, step s = .next t := by
  by_cases hm : mover s = .host
  · obtain ⟨t, ht⟩ := hostStep_next_of_busAdmitted (s := s.popTurn) hadm
    exact ⟨t, (step_of_mover_host hm).trans ht⟩
  · exact step_next_of_mover_ne_host hm

/-- A `CMD` write that is next on the bus is held exactly while the block is busy (R56). -/
theorem cmdHeld_of_cmd {s : State} {w : Word} {rest : List Access} (hb : s.bus = .write .word s.cfg.base w :: rest) :
    cmdHeld s = busy s := by
  simp [cmdHeld, hb, cmdOffset]

/-- An admitted access that is not held is taken off the bus by the host's step. -/
theorem hostStep_takes {s : State} {a : Access} {rest : List Access} {off : Nat} (hb : s.bus = a :: rest)
    (ha : admitted s.cfg (accessPlace a).1 (accessPlace a).2 off) (hfree : cmdHeld s = false) :
    ∃ t, hostStep s = .next t ∧ t.bus = rest := by
  have ho := windowOffset_eq_ok_iff_admitted.2 ha
  cases a with
  | read width addr => exact ⟨_, hostStep_read hb ho, rfl⟩
  | write width addr v =>
    by_cases hcmd : off = cmdOffset
    · subst hcmd
      obtain ⟨rfl, rfl, -⟩ : admitted s.cfg width addr cmdOffset := ha
      have hidle : s.serState = .idle := busy_eq_false_iff.1 ((cmdHeld_of_cmd hb).symm.trans hfree)
      obtain ⟨t, ht, hbus⟩ := acceptCommand_next v { s with bus := rest }
      exact ⟨t, (hostStep_cmd hb hidle).trans ht, hbus⟩
    · exact ⟨_, hostStep_write_ignored hb ho hcmd, rfl⟩

/-- With no turn listed the slot clock moves when the host has no access or its `CMD` write is held. -/
theorem mover_eq_slot {s : State} (ht : s.turns = []) (h : s.bus = [] ∨ cmdHeld s = true) : mover s = .slot := by
  rw [mover, ht]
  exact if_pos h

/-- Otherwise the host moves. -/
theorem mover_eq_host {s : State} (ht : s.turns = []) (h : ¬ (s.bus = [] ∨ cmdHeld s = true)) : mover s = .host := by
  rw [mover, ht]
  exact if_neg h

/-- Only a busy block holds an access. -/
theorem busy_of_cmdHeld {s : State} (h : cmdHeld s = true) : busy s = true := by
  unfold cmdHeld at h
  split at h
  · exact (Bool.and_eq_true_iff.1 h).1
  · cases h

/-- What brings a run nearer to its end: a listed turn is taken, or else an access, or else a slot of a busy block. -/
def State.nearerEnd (t s : State) : Prop :=
  t.turns.length < s.turns.length ∨ (t.turns = s.turns ∧ t.bus.length < s.bus.length) ∨
  (t.turns = s.turns ∧ t.bus = s.bus ∧ t.slotsLeft < s.slotsLeft)

/-- Every step of a run that has not ended brings it nearer to its end. -/
theorem step_nearerEnd {s : State} (hinv : s.Inv) (hadm : s.busAdmitted) (hend : ¬ s.ended) :
    ∃ t, step s = .next t ∧ t.nearerEnd s := by
  cases ht : s.turns with
  | cons turn ts =>
    obtain ⟨t, hstep⟩ := step_next_of_busAdmitted hadm
    refine ⟨t, hstep, .inl ?_⟩
    rw [step_turns hstep, ht]
    exact Nat.lt_succ_self _
  | nil =>
    by_cases hslot : s.bus = [] ∨ cmdHeld s = true
    · have hs : s.serState ≠ .idle := by
        rcases hslot with hb | hheld
        · exact fun hidle => hend ⟨hb, hidle⟩
        · exact busy_eq_true_iff.1 (busy_of_cmdHeld hheld)
      have hstep := step_of_mover_slot (mover_eq_slot ht hslot)
      have hless : (slotStep s).slotsLeft < s.slotsLeft := Nat.lt_of_succ_le (slotsLeft_slotStep hinv hs).le
      refine ⟨_, hstep, .inr (.inr ⟨?_, ?_, hless⟩)⟩
      · rw [step_turns hstep, ht, List.tail_nil]
      · rw [slotStep_eq, State.popTurn_bus]
    · have hstep := step_of_mover_host (mover_eq_host ht hslot)
      obtain ⟨hb, hfree⟩ := not_or.1 hslot
      obtain ⟨a, rest, hb⟩ := List.exists_cons_of_ne_nil hb
      obtain ⟨off, ha⟩ := hadm a (by rw [hb]; exact List.mem_cons_self)
      obtain ⟨t, hh, hbus⟩ := hostStep_takes (s := s.popTurn) hb ha (Bool.eq_false_of_not_eq_true hfree)
      refine ⟨t, hstep.trans hh, .inr (.inl ⟨?_, ?_⟩)⟩
      · rw [hostStep_turns hh, State.popTurn_turns, ht, List.tail_nil]
      · rw [hbus, hb]
        exact Nat.lt_succ_self _

/-- So the run ends, in a state that meets the invariant. -/
theorem exists_runEnds {s : State} (hinv : s.Inv) (hadm : s.busAdmitted) : ∃ n t, runEnds n s t ∧ t.Inv := by
  by_cases hend : s.ended
  · exact ⟨0, s, runEnds_zero hend, hinv⟩
  · obtain ⟨u, hstep, hnear⟩ := step_nearerEnd hinv hadm hend
    obtain ⟨n, t, hruns, ht⟩ := exists_runEnds (stepKeepsInvariant s u hinv hstep) (step_keeps_busAdmitted hadm hstep)
    exact ⟨n + 1, t, runEnds_succ hend hstep hruns, ht⟩
termination_by (s.turns.length, s.bus.length, s.slotsLeft)
decreasing_by
  rcases hnear with h | ⟨ht, h⟩ | ⟨ht, hb, h⟩
  · exact .left _ _ h
  · rw [ht]
    exact .right _ (.left _ _ h)
  · rw [ht, hb]
    exact .right _ (.right _ h)

/-- Settles O52, by the order in which turns, accesses and slots are used up. -/
theorem everyRunEnds : Obligations.EveryRunEnds := fun _ hinv hadm => exists_runEnds hinv hadm

/-! ### The run of a command sequence -/

/-- A command does not look at the bus. -/
theorem exec_withBus {i : Instr} {s t : State} (h : exec i s = .next t) (b : List Access) :
    exec i { s with bus := b } = .next { t with bus := b } := by
  cases i with
  | drawg x c =>
    cases (execDrawg_eq x c s).symm.trans h
    exact execDrawg_eq x c { s with bus := b }
  | vpush c =>
    by_cases hs : s.vkind = .str
    · by_cases hl : s.tlen = textMax
      · cases (execVpush_full hs hl c).symm.trans h
        exact execVpush_full (s := { s with bus := b }) hs hl c
      · cases (execVpush_append hs hl c).symm.trans h
        exact execVpush_append (s := { s with bus := b }) hs hl c
    · cases (execVpush_new hs c).symm.trans h
      exact execVpush_new (s := { s with bus := b }) hs c
  | drawv sign align =>
    cases (execDrawv_eq sign align s).symm.trans h
    exact execDrawv_eq sign align { s with bus := b }
  | _ => cases h; rfl

/-- An idle block takes a word alike whatever words are behind it on the bus. The word leaves the bus and the list of
turns alone, and can only change the serializer to `WAIT`. -/
theorem acceptCommand_submit (w : Word) {s : State} (hs : s.serState = .idle) (ws : List Word) :
    ∃ t, acceptCommand w s = .next t ∧ acceptCommand w (s.submit ws) = .next (t.submit ws) ∧
      t.bus = s.bus ∧ t.turns = s.turns ∧ (t.serState = .idle ∨ t.serState = .wait) := by
  cases hw : decode w with
  | ok i =>
    obtain ⟨t, ht⟩ := exec_next i s
    have hkeep := exec_writesOnlyItsItems ht
    refine ⟨t, (acceptCommand_of_decode hw s).trans ht, ?_, hkeep.bus, hkeep.turns, hs ▸ exec_serState ht⟩
    rw [acceptCommand_of_decode hw, State.submit, exec_withBus ht, State.submit, hkeep.bus, hkeep.cfg]
  | error r =>
    exact ⟨s.finish .illegal, by rw [acceptCommand, hw], by rw [acceptCommand, hw]; rfl, rfl, rfl, .inl hs⟩

/-- The words behind the first one are those that stay on the bus. -/
theorem bus_submit_cons {s : State} (hb : s.bus = []) (w : Word) (ws : List Word) :
    (s.submit (w :: ws)).bus = .write .word s.cfg.base w :: (s.submit ws).bus := by
  simp [State.submit, hb, cmdOffset]

/-- Where no turn is listed none is used up. -/
theorem popTurn_of_nil {s : State} (ht : s.turns = []) : s.popTurn = s := by
  rw [State.popTurn, ht, List.tail_nil, ← ht]

/-- With no turn listed and nothing else on the bus, an idle block takes the first of the submitted words. -/
theorem step_submit_of_idle {s : State} (ht : s.turns = []) (hb : s.bus = []) (hs : s.serState = .idle) (w : Word)
    (ws : List Word) :
    mover (s.submit (w :: ws)) = .host ∧ step (s.submit (w :: ws)) = acceptCommand w (s.submit ws) := by
  have hbus := bus_submit_cons hb w ws
  have hidle : (s.submit (w :: ws)).serState = .idle := hs
  have hfree : ¬ ((s.submit (w :: ws)).bus = [] ∨ cmdHeld (s.submit (w :: ws)) = true) := by
    rw [cmdHeld_of_cmd hbus, busy_eq_false_iff.2 hidle, hbus]
    simp
  have hmover := mover_eq_host (by exact ht) hfree
  refine ⟨hmover, ?_⟩
  rw [step_of_mover_host hmover, popTurn_of_nil (by exact ht), hostStep_cmd hbus hidle]
  rfl

/-- A slot step does not look at the submitted words. -/
theorem slotStep_submit (s : State) (ws : List Word) : slotStep (s.submit ws) = (slotStep s).submit ws := by
  refine (slotStep_hostSide s (s.submit ws).bus s.turns s.reads).trans ?_
  rw [slotStep_eq s]
  rfl

/-- A busy block holds the submitted words, and the slot clock moves. -/
theorem step_submit_of_busy {s : State} (ht : s.turns = []) (hb : s.bus = []) (hs : busy s = true) (ws : List Word) :
    mover (s.submit ws) = .slot ∧ step (s.submit ws) = .next ((slotStep s).submit ws) := by
  have hheld : (s.submit ws).bus = [] ∨ cmdHeld (s.submit ws) = true := by
    cases ws with
    | nil => exact .inl (by simp [State.submit, hb])
    | cons w ws => exact .inr ((cmdHeld_of_cmd (bus_submit_cons hb w ws)).trans hs)
  have hmover := mover_eq_slot (by exact ht) hheld
  refine ⟨hmover, ?_⟩
  rw [step_of_mover_slot hmover, slotStep_submit, popTurn_of_nil]
  exact (slotStep_turns s).trans ht

/-- As long as slot steps alone keep the block busy, a run with submitted words makes these slot steps first. -/
theorem runEnds_submit_of_busy {n k : Nat} {s t : State} {ws : List Word} (ht : s.turns = []) (hb : s.bus = [])
    (hbusy : ∀ m, m < k → busy (slotSteps m s) = true) (h : runEnds n ((slotSteps k s).submit ws) t) :
    runEnds (n + k) (s.submit ws) t ∧
      runWire (n + k) (s.submit ws) = wire k s ++ runWire n ((slotSteps k s).submit ws) := by
  induction k generalizing s with
  | zero => exact ⟨h, rfl⟩
  | succ k ih =>
    have hs : busy s = true := hbusy 0 k.succ_pos
    obtain ⟨hmover, hstep⟩ := step_submit_of_busy ht hb hs ws
    obtain ⟨hends, hwire⟩ := ih ((slotStep_turns s).trans ht) (by rw [slotStep_eq]; exact hb)
      (fun m hm => hbusy (m + 1) (Nat.succ_lt_succ hm)) h
    refine ⟨runEnds_succ (fun hend => busy_eq_true_iff.1 hs hend.2) hstep hends, ?_⟩
    rw [← Nat.add_assoc, runWire_slot hstep hmover, hwire]
    rfl

/-- A word that leaves the block idle starts no transmission. -/
theorem runOf_cons_of_idle {s t : State} {w : Word} (h : acceptCommand w s = .next t) (hs : t.serState = .idle)
    (ws : List Word) : runOf s (w :: ws) = runOf t ws := by
  simp only [runOf, h, hs, if_true]

/-- A word that starts one: the words behind it run from the end of its frame, whose wire output goes before theirs. -/
theorem runOf_cons_of_wait {s t : State} {w : Word} (h : acceptCommand w s = .next t) (hs : t.serState = .wait)
    (hcfg : t.cfg.Wf) (ws : List Word) :
    runOf s (w :: ws) =
      ((runOf (slotSteps (t.latchCnt + 240 * t.cfg.pixels) t) ws).1,
        wire (t.latchCnt + 240 * t.cfg.pixels) t ++ (runOf (slotSteps (t.latchCnt + 240 * t.cfg.pixels) t) ws).2) := by
  obtain ⟨hwire, -, hend⟩ := frameOnTheWire t hcfg hs
  rw [hwire, hend]
  simp [runOf, h, hs]

/-- Slot steps keep the invariant. -/
theorem slotSteps_keeps_inv {s : State} (hinv : s.Inv) (n : Nat) : (slotSteps n s).Inv := by
  induction n generalizing s with
  | zero => exact hinv
  | succ n ih => exact ih (slotStep_keeps_inv hinv)

/-- The run of submitted words, word by word. -/
theorem exists_runEnds_submit {s : State} (hinv : s.Inv) (hs : s.serState = .idle) (ht : s.turns = []) (hb : s.bus = [])
    (ws : List Word) :
    ∃ n, runEnds n (s.submit ws) (runOf s ws).1 ∧ runWire n (s.submit ws) = (runOf s ws).2 := by
  induction ws generalizing s with
  | nil =>
    have hnone : s.submit [] = s := by rw [State.submit, List.map_nil, List.append_nil]
    rw [hnone]
    exact ⟨0, runEnds_zero ⟨hb, hs⟩, rfl⟩
  | cons w ws ih =>
    obtain ⟨t, hw, hsubmit, hbus, hturns, hser⟩ := acceptCommand_submit w hs ws
    obtain ⟨hmover, hhost⟩ := step_submit_of_idle ht hb hs w ws
    have hstep : step (s.submit (w :: ws)) = .next (t.submit ws) := hhost.trans hsubmit
    have hgoes : ¬ (s.submit (w :: ws)).ended := by simp [bus_submit_cons hb]
    have hinv' : t.Inv := acceptCommand_keeps_inv hinv hs hw
    rw [hb] at hbus
    rw [ht] at hturns
    rcases hser with hidle | hwait
    · obtain ⟨n, hends, hwire⟩ := ih hinv' hidle hturns hbus
      rw [runOf_cons_of_idle hw hidle]
      exact ⟨n + 1, runEnds_succ hgoes hstep hends, (runWire_other hstep (by simp [hmover]) n).trans hwire⟩
    · obtain ⟨-, hbusy, hend⟩ := frameOnTheWire t hinv'.1 hwait
      rw [runOf_cons_of_wait hw hwait hinv'.1]
      generalize t.latchCnt + 240 * t.cfg.pixels = k at hbusy hend ⊢
      obtain ⟨n, hends, hwire⟩ := ih (slotSteps_keeps_inv hinv' k) (by rw [hend]) (by rw [hend]; exact hturns)
        (by rw [hend]; exact hbus)
      obtain ⟨hends, hrun⟩ := runEnds_submit_of_busy hturns hbus hbusy hends
      refine ⟨n + k + 1, runEnds_succ hgoes hstep hends, ?_⟩
      rw [runWire_other hstep (by simp [hmover]), hrun, hwire]

/-- Settles O58, by induction on the words: each takes the host's step, and a `TRANSMIT` the slots of its frame too. -/
theorem runOfCommandSequence : Obligations.RunOfCommandSequence := by
  intro s ws hinv hs ht hb
  obtain ⟨n, hends, hwire⟩ := exists_runEnds_submit hinv hs ht hb ws
  exact ⟨n, _, hends, rfl, hwire⟩

end Sys2Proof.Machine
end
